-- ==== Sys2Proof/Word.lean ====
section
/-! DEFINITION. The block's words: a byte, the 16-bit length and checksum fields, the 4-byte module
address (spec 00_scope.md R7, 10_state.md R10). -/

namespace Sys2Proof

/-- A byte: 8 bits, unsigned (R7). -/
abbrev Byte := BitVec 8

/-- The length field and the checksum: 16 bits, unsigned (R60, R90). -/
abbrev Word16 := BitVec 16

/-- A module address: byte 0, the byte sent first, is bits 31:24 (R11, R42). -/
abbrev Address := BitVec 32

end Sys2Proof
end

