-- ==== Sys2Proof/Syntax.lean ====
section
/-! DEFINITION. The commands, the instructions, and the events of the environment: one constructor of `Instr` per
row of spec/opcode_table.json (spec 30_encoding.md R63, R72, 10_state.md R30). -/

namespace Sys2Proof

/-- The identity of a command: the eight of R72, and `other n` for the row number `n` added to `CMDTAB` after
them (R132). -/
inductive CmdId
  | auth | status | capture | convert | search | enroll | store | delete
  | other (n : Nat)
  deriving DecidableEq, Repr, Inhabited

/-- A command: its identity and one unsigned value per parameter of its row, in table order (R13, R120). How
many values and how large is `CMDTAB`'s to say (log 18). -/
structure Command where
  id   : CmdId
  args : List Nat
  deriving DecidableEq, Repr, Inhabited

/-- The instructions. The four packet types stand for the receipt of one whole well-formed packet of that
type (R63, R171; log 12), the eight commands for the issue of that command with the parameters of R72 (R163).
A parameter is an unsigned value whose width is the row's to say (R120; log 18). -/
inductive Instr
  | cmd (address : Address) (payload : List Byte)
  | data (address : Address) (payload : List Byte)
  | ack (address : Address) (payload : List Byte)
  | endData (address : Address) (payload : List Byte)
  | auth (password : Nat)
  | status
  | capture
  | convert (buffer : Nat)
  | search (buffer startPage pageSpan : Nat)
  | enroll
  | store (buffer index : Nat)
  | delete (startIndex count : Nat)
  deriving DecidableEq, Repr, Inhabited

/-- Where an instruction's bytes are read: the command payload the host offers, or the receive side of
the wire (the two formats CMDPAYLOAD and PID of spec/opcode_table.json, R76). -/
inductive Port
  | command
  | wire
  deriving DecidableEq, Repr

/-- The events of the environment (R30), and the host's write of `ADDR` (R11, R215; log 10). -/
inductive Event
  | issue (c : Command)
  | takeResult
  | cancel
  | reset
  | txByte
  | txError
  | rxByte (b : Byte)
  | rxError
  | timeout
  | configure (address : Address)
  deriving DecidableEq, Repr, Inhabited

end Sys2Proof
end

