-- ==== Sys2Proof/Config.lean ====
section
/-! DEFINITION. What the document fixes, the block's parameters with their defaults, and the free values
(spec 00_scope.md R6, 10_state.md R22, R32, 30_encoding.md R72, R73, 43_response_decoder.md R144, R147). -/

namespace Sys2Proof.Config

/-- `MAX_PAYLOAD`: the longest payload `Encode` accepts (R6, R101). -/
def maxPayload : Nat := 65533

/-- `MAX_FRAME`: the longest frame a length field can describe (R6, R61). -/
def maxFrame : Nat := 65544

/-- `HDR_LEN`: magic, address, package identifier and length (R6). -/
def hdrLen : Nat := 9

/-- The first magic byte (R6, R60). -/
def magic0 : Byte := 0xEF

/-- The second magic byte (R6, R60). -/
def magic1 : Byte := 0x01

/-- The names of command parameters (R72) and of response fields (R148, R149). DESIGN CHOICE (safe): R147 does not
say what a name is, so `other` stands for any name beyond those the spec uses (log 23). -/
inductive FieldName
  | password | buffer | startPage | pageSpan | index | startIndex | count
  | statusRegister | systemIdentifier | libraryCapacity | securityLevel | deviceAddress
  | packetSizeCode | baudRateCode
  | score
  | other (tag : Nat)
  deriving DecidableEq, Repr, Inhabited

/-- A named field and its width in bytes (R72, R147). -/
structure FieldSpec where
  name  : FieldName
  width : Nat
  deriving DecidableEq, Repr, Inhabited

/-- A row of `CMDTAB`: the instruction code and the ordered parameter list (R121). -/
structure CmdRow where
  icode  : Byte
  params : List FieldSpec
  deriving DecidableEq, Repr, Inhabited

/-- `CMDTAB`: one row per command (R72, R121). The eight rows of R72, and in `extra` the rows added after them,
which need no more than their data (R132). -/
structure CmdTab where
  auth    : CmdRow
  status  : CmdRow
  capture : CmdRow
  convert : CmdRow
  search  : CmdRow
  enroll  : CmdRow
  store   : CmdRow
  delete  : CmdRow
  extra   : List CmdRow
  deriving DecidableEq, Repr, Inhabited

/-- The category of a device error (R144); the type is open to extension, so `other` stands for a
category beyond the named ones (log 7). -/
inductive Category
  | communicationError | noFinger | mismatch | libraryFull | unknown
  | other (tag : Nat)
  deriving DecidableEq, Repr, Inhabited

/-- The range of `CHUNK` (R6). -/
abbrev Chunk := { n : Nat // 1 ≤ n ∧ n ≤ 65533 }

/-- The parameters of the block that the rules read (R6, R22), as plain data: `ERRCAT` by its entries,
every code without one being `Unknown`; `RESP_LAYOUT` by its entries, every command without one being
absent; `ASM_CAP` with `none` for infinity. -/
structure Params where
  cmdTab     : CmdTab
  errCat     : List (Byte × Category)
  respLayout : List (CmdId × List FieldSpec)
  asmCap     : Option Nat
  hasCancel  : Bool
  chunk      : Chunk
  deriving DecidableEq, Repr

/-- The default `CMDTAB`. PRESUMED (unsafe): the codes of R73 and the parameter lists of R72, which the
spec gives from general knowledge (log 6). -/
def defaultCmdTab : CmdTab where
  auth    := ⟨0x13, [⟨.password, 4⟩]⟩
  status  := ⟨0x0F, []⟩
  capture := ⟨0x01, []⟩
  convert := ⟨0x02, [⟨.buffer, 1⟩]⟩
  search  := ⟨0x04, [⟨.buffer, 1⟩, ⟨.startPage, 2⟩, ⟨.pageSpan, 2⟩]⟩
  enroll  := ⟨0x05, []⟩
  store   := ⟨0x06, [⟨.buffer, 1⟩, ⟨.index, 2⟩]⟩
  delete  := ⟨0x0C, [⟨.startIndex, 2⟩, ⟨.count, 2⟩]⟩
  extra   := []

/-- The default `ERRCAT`. PRESUMED (unsafe): the numbers of R144, which the spec gives from general
knowledge (log 7). -/
def defaultErrCat : List (Byte × Category) :=
  [(0x01, .communicationError), (0x02, .noFinger), (0x08, .mismatch), (0x1F, .libraryFull)]

/-- The default parameters: R72, R73, R144, `RESP_LAYOUT` absent (R147). DESIGN CHOICE (unsafe): `ASM_CAP`
infinite, `HAS_CANCEL` true, `CHUNK` 65533 (log 8). -/
def defaultParams : Params where
  cmdTab     := defaultCmdTab
  errCat     := defaultErrCat
  respLayout := []
  asmCap     := none
  hasCancel  := true
  chunk      := ⟨65533, by decide⟩

/-- DESIGN CHOICE (unsafe): the value of `ADDR` in `State.reset`, the document's only example (R6, R11; log 4). -/
def resetAddress : Address := 0xFFFFFFFF

/-- Free value: what `CUR_CMD` holds after a reset (R32, U22; log 5). -/
opaque freeCommand : Nat → Command

/-- Free value: what `RXADDR` holds after a reset (R32, U22; log 5). -/
opaque freeAddress : Nat → Address

/-- Free value: what `RXPID` holds after a reset (R32, U22; log 5). -/
opaque freePid : Nat → Byte

/-- Free value: an endless sequence of events of the environment, which nothing constrains (R161, R188; log 1). -/
opaque freeEvent : Nat → Event

end Sys2Proof.Config
end

