-- ==== Sys2Proof/Machine/Operands.lean ====
section
/-! DEFINITION. The operand forms: byte order (spec 00_scope.md R8, 20_memory.md R41 to R43), slices, and
the arguments of a command with the widths of its `CMDTAB` row (30_encoding.md R68, R72). -/

namespace Sys2Proof

/-- `BE(v, w)`: the `w`-byte big-endian spelling of `v`, most significant byte first (R8). -/
def spellBE (v w : Nat) : List Byte :=
  (List.range w).map fun i => BitVec.ofNat 8 (v / 256 ^ (w - 1 - i))

/-- `be(s)`: the number whose big-endian spelling is `s` (R8). -/
def readBE (s : List Byte) : Nat :=
  s.foldl (fun acc b => acc * 256 + b.toNat) 0

/-- `s[a..b)`: the bytes of `s` at offsets `a` up to but not including `b` (R8). -/
def slice (s : List Byte) (a b : Nat) : List Byte :=
  (s.drop a).take (b - a)

/-- The two bytes of a 16-bit field, big-endian (R41). -/
def word16Bytes (v : Word16) : List Byte :=
  [v.extractLsb' 8 8, v.extractLsb' 0 8]

/-- The four bytes of an address in the order sent: byte 0 is bits 31:24 (R42). -/
def addressBytes (a : Address) : List Byte :=
  [a.extractLsb' 24 8, a.extractLsb' 16 8, a.extractLsb' 8 8, a.extractLsb' 0 8]

/-- The address carried by four bytes (R42). -/
def bytesAddress (s : List Byte) : Address :=
  BitVec.ofNat 32 (readBE s)

/-- The command an instruction issues; none for a packet. -/
def instrCommand : Instr → Option Command
  | .cmd _ _ => none
  | .data _ _ => none
  | .ack _ _ => none
  | .endData _ _ => none
  | .auth password => some ⟨.auth, [password]⟩
  | .status => some ⟨.status, []⟩
  | .capture => some ⟨.capture, []⟩
  | .convert buffer => some ⟨.convert, [buffer]⟩
  | .search buffer startPage pageSpan => some ⟨.search, [buffer, startPage, pageSpan]⟩
  | .enroll => some ⟨.enroll, []⟩
  | .store buffer index => some ⟨.store, [buffer, index]⟩
  | .delete startIndex count => some ⟨.delete, [startIndex, count]⟩

/-- The instruction that issues a command (R163). None for a command that is no row of spec/opcode_table.json: one
of an added row (R132), or one whose row has another parameter list than R72's (R6). -/
def commandInstr (c : Command) : Option Instr :=
  match c.id, c.args with
  | .auth, [password] => some (.auth password)
  | .status, [] => some .status
  | .capture, [] => some .capture
  | .convert, [buffer] => some (.convert buffer)
  | .search, [buffer, startPage, pageSpan] => some (.search buffer startPage pageSpan)
  | .enroll, [] => some .enroll
  | .store, [buffer, index] => some (.store buffer index)
  | .delete, [startIndex, count] => some (.delete startIndex count)
  | _, _ => none

/-- The row of `CMDTAB` for a command identity (R121); none where no such row was added (R132). -/
def cmdRow (tab : Config.CmdTab) : CmdId → Option Config.CmdRow
  | .auth => some tab.auth
  | .status => some tab.status
  | .capture => some tab.capture
  | .convert => some tab.convert
  | .search => some tab.search
  | .enroll => some tab.enroll
  | .store => some tab.store
  | .delete => some tab.delete
  | .other n => tab.extra[n]?

/-- The rows of `CMDTAB` with their identities: those of R72 in its order, then the added ones (R132). -/
def cmdRows (tab : Config.CmdTab) : List (CmdId × Config.CmdRow) :=
  [(.auth, tab.auth), (.status, tab.status), (.capture, tab.capture), (.convert, tab.convert),
    (.search, tab.search), (.enroll, tab.enroll), (.store, tab.store), (.delete, tab.delete)]
    ++ tab.extra.zipIdx.map fun r => (.other r.2, r.1)

/-- The parameter widths of a row, in order (R72). -/
def rowWidths (row : Config.CmdRow) : List Nat :=
  row.params.map Config.FieldSpec.width

/-- One value per parameter, each less than `256^w` (R120). -/
def argsFit : List Nat → List Nat → Bool
  | [], [] => true
  | w :: ws, v :: vs => decide (v < 256 ^ w) && argsFit ws vs
  | _, _ => false

/-- The parameters spelled one after another, each at its width (R68). -/
def spellArgs : List Nat → List Nat → List Byte
  | w :: ws, v :: vs => spellBE v w ++ spellArgs ws vs
  | _, _ => []

/-- The parameters read back: one value per width, and the bytes left over. -/
def readArgs : List Nat → List Byte → Option (List Nat × List Byte)
  | [], bs => some ([], bs)
  | w :: ws, bs =>
    if bs.length < w then none
    else (readArgs ws (bs.drop w)).map fun r => (readBE (bs.take w) :: r.1, r.2)

/-- The payload of a row with its argument values: the instruction code and each value at its width (R120). -/
def encodeRow (row : Config.CmdRow) (args : List Nat) : List Byte :=
  row.icode :: spellArgs (rowWidths row) args

/-- `CmdEncode(c, args)`: the payload by the command's row, in table order (R120, R122). An identity without a row
is no command of `CMDTAB`; it has no payload, and `commandTyped` refuses it (U19). -/
def cmdEncode (tab : Config.CmdTab) (c : Command) : List Byte :=
  match cmdRow tab c.id with
  | some row => encodeRow row c.args
  | none => []

end Sys2Proof
end

