-- ==== Sys2Proof/WellFormed.lean ====
section
/-! DEFINITION. Which instructions are well formed: a command whose arguments fit the widths of its `CMDTAB`
row (spec 42_command_encoder.md R120, 93_implementation_defined.md U19), a packet whose payload fits the
length field (41_packet_codec.md R101). -/

namespace Sys2Proof

/-- The command has a row, and its arguments fit the widths of that row (R120, U19). -/
def commandTyped (tab : Config.CmdTab) (c : Command) : Bool :=
  match cmdRow tab c.id with
  | some row => argsFit (rowWidths row) c.args
  | none => false

/-- The payload of a packet is at most 65533 bytes (R62, R101). -/
def payloadFits (payload : List Byte) : Bool :=
  decide (payload.length ≤ Config.maxPayload)

/-- An instruction that can stand in its encoding (R62, R101, R120). -/
def wellFormed (tab : Config.CmdTab) : Instr → Bool
  | .cmd _ payload => payloadFits payload
  | .data _ payload => payloadFits payload
  | .ack _ payload => payloadFits payload
  | .endData _ payload => payloadFits payload
  | .auth password => commandTyped tab ⟨.auth, [password]⟩
  | .status => commandTyped tab ⟨.status, []⟩
  | .capture => commandTyped tab ⟨.capture, []⟩
  | .convert buffer => commandTyped tab ⟨.convert, [buffer]⟩
  | .search buffer startPage pageSpan => commandTyped tab ⟨.search, [buffer, startPage, pageSpan]⟩
  | .enroll => commandTyped tab ⟨.enroll, []⟩
  | .store buffer index => commandTyped tab ⟨.store, [buffer, index]⟩
  | .delete startIndex count => commandTyped tab ⟨.delete, [startIndex, count]⟩

end Sys2Proof
end

