-- ==== Sys2Proof/Decode.lean ====
section
/-! DEFINITION. The checksum (spec 40_checksum.md), the frame encoder and the window decoder
(41_packet_codec.md), and the decoder and encoder of instructions over them (30_encoding.md R60 to R68). -/

namespace Sys2Proof

/-- The arithmetic sum of a byte sequence (R8). -/
def byteSum (s : List Byte) : Nat :=
  (s.map BitVec.toNat).sum

/-- `Checksum(pid, L, payload)`: the sum of the identifier, both length bytes and every payload byte,
modulo 65536 (R90). -/
def checksum (pid : Byte) (len : Word16) (payload : List Byte) : Word16 :=
  BitVec.ofNat 16
    (pid.toNat + (len.extractLsb' 8 8).toNat + (len.extractLsb' 0 8).toNat + byteSum payload)

/-- One step of the serial accumulator `ACC` (R92). -/
def accumulate (acc : Word16) (b : Byte) : Word16 :=
  acc + b.setWidth 16

/-- The serial accumulator over a byte sequence, from 0 (R92). -/
def serialSum (s : List Byte) : Word16 :=
  s.foldl accumulate 0

/-- The only failure of `Encode` (R101). -/
inductive EncodeError
  | payloadTooLarge
  deriving DecidableEq, Repr

/-- The frame of R60 for a payload whose length fits the length field. -/
def rawFrame (address : Address) (pid : Byte) (payload : List Byte) : List Byte :=
  [Config.magic0, Config.magic1] ++ addressBytes address ++ [pid]
    ++ word16Bytes (BitVec.ofNat 16 (payload.length + 2)) ++ payload
    ++ word16Bytes (checksum pid (BitVec.ofNat 16 (payload.length + 2)) payload)

/-- `Encode(address, pid, payload)` (R100, R101, R102). -/
def encodeFrame (address : Address) (pid : Byte) (payload : List Byte) :
    Except EncodeError (List Byte) :=
  if Config.maxPayload < payload.length then .error .payloadTooLarge
  else .ok (rawFrame address pid payload)

/-- The verdicts of `Decode` (R103). -/
inductive Verdict
  | ok (address : Address) (pid : Byte) (payload : List Byte) (consumed : Nat)
  | badMagic
  | incomplete
  | badLength
  | checksumError
  deriving DecidableEq, Repr

/-- The byte of a window at an offset below its length. -/
def byteAt (w : List Byte) (i : Nat) : Byte :=
  w.getD i 0

/-- The length field of a window of at least nine bytes (R106). -/
def lengthField (w : List Byte) : Nat :=
  (byteAt w 7).toNat * 256 + (byteAt w 8).toNat

/-- `Decode(w)`: the clauses in the order of R103, each with the rule that states it. -/
def decodeFrame (w : List Byte) : Verdict :=
  if 1 ≤ w.length ∧ byteAt w 0 ≠ Config.magic0 then .badMagic                -- R104
  else if 2 ≤ w.length ∧ byteAt w 1 ≠ Config.magic1 then .badMagic           -- R104
  else if w.length < Config.hdrLen then .incomplete                          -- R105
  else if lengthField w < 2 then .badLength                                  -- R106
  else if w.length < Config.hdrLen + lengthField w then .incomplete          -- R107
  else
    let len := lengthField w
    let payload := slice w 9 (7 + len)
    let stored := (byteAt w (7 + len)).toNat * 256 + (byteAt w (8 + len)).toNat
    if stored ≠ (checksum (byteAt w 6) (BitVec.ofNat 16 len) payload).toNat then .checksumError  -- R108
    else .ok (bytesAddress (slice w 2 6)) (byteAt w 6) payload (9 + len)     -- R109

/-- The role a package identifier gives a packet; none for the 252 values without one (R63, R64). -/
def packetInstr (address : Address) (pid : Byte) (payload : List Byte) : Option Instr :=
  if pid = 0x01 then some (.cmd address payload)
  else if pid = 0x02 then some (.data address payload)
  else if pid = 0x07 then some (.ack address payload)
  else if pid = 0x08 then some (.endData address payload)
  else none

/-- Why bytes are no instruction. -/
inductive Reject
  | badMagic | incomplete | badLength | checksumError   -- the wire: the verdict of R103
  | noRole (pid : Byte)                                 -- the wire: an identifier without a role (R64)
  | noCode                                              -- the command port: no byte at all
  | unknownCode (icode : Byte)                          -- the command port: no row of `CMDTAB` (R77)
  | truncated                                           -- the command port: parameter bytes missing
  | noInstruction (c : Command)                         -- the command port: no row of the opcode table (R132)
  deriving DecidableEq, Repr

/-- The instruction at the start of the receive window, and the bytes after it. -/
def decodeWire (w : List Byte) : Except Reject (Instr × List Byte) :=
  match decodeFrame w with
  | .ok address pid payload consumed =>
    match packetInstr address pid payload with
    | some i => .ok (i, w.drop consumed)
    | none => .error (.noRole pid)
  | .badMagic => .error .badMagic
  | .incomplete => .error .incomplete
  | .badLength => .error .badLength
  | .checksumError => .error .checksumError

/-- The row of `CMDTAB` with an instruction code, and its identity (R77). DESIGN CHOICE (safe): codes need not be
distinct (R73), and the spec does not say which of two rows with one code a payload stands for; this takes the
first, in the order of `cmdRows` (log 24). -/
def findCommand (tab : Config.CmdTab) (icode : Byte) : Option (CmdId × Config.CmdRow) :=
  (cmdRows tab).find? fun e => e.2.icode == icode

/-- The command at the start of a payload (R65, R68), and the bytes after it. -/
def decodeCommand (tab : Config.CmdTab) : List Byte → Except Reject (Command × List Byte)
  | [] => .error .noCode
  | icode :: rest =>
    match findCommand tab icode with
    | none => .error (.unknownCode icode)
    | some (id, row) =>
      match readArgs (rowWidths row) rest with
      | none => .error .truncated
      | some (args, left) => .ok (⟨id, args⟩, left)

/-- The instruction at the start of a command payload. A command of an added row, or with another parameter list
than R72's, is no row of spec/opcode_table.json, hence no instruction (R6, R132). -/
def decodePayload (tab : Config.CmdTab) (bytes : List Byte) : Except Reject (Instr × List Byte) :=
  match decodeCommand tab bytes with
  | .error r => .error r
  | .ok (c, left) =>
    match commandInstr c with
    | some i => .ok (i, left)
    | none => .error (.noInstruction c)

/-- The decoder: total on any bytes, answering the instruction and the bytes after it, or the reason
there is none. -/
def decode (tab : Config.CmdTab) (port : Port) (bytes : List Byte) : Except Reject (Instr × List Byte) :=
  match port with
  | .command => decodePayload tab bytes
  | .wire => decodeWire bytes

/-- The encoder: the port an instruction is read at and its bytes there (R60, R63, R120). -/
def encode (tab : Config.CmdTab) : Instr → Port × List Byte
  | .cmd address payload => (.wire, rawFrame address 0x01 payload)
  | .data address payload => (.wire, rawFrame address 0x02 payload)
  | .ack address payload => (.wire, rawFrame address 0x07 payload)
  | .endData address payload => (.wire, rawFrame address 0x08 payload)
  | .auth password => (.command, cmdEncode tab ⟨.auth, [password]⟩)
  | .status => (.command, cmdEncode tab ⟨.status, []⟩)
  | .capture => (.command, cmdEncode tab ⟨.capture, []⟩)
  | .convert buffer => (.command, cmdEncode tab ⟨.convert, [buffer]⟩)
  | .search buffer startPage pageSpan => (.command, cmdEncode tab ⟨.search, [buffer, startPage, pageSpan]⟩)
  | .enroll => (.command, cmdEncode tab ⟨.enroll, []⟩)
  | .store buffer index => (.command, cmdEncode tab ⟨.store, [buffer, index]⟩)
  | .delete startIndex count => (.command, cmdEncode tab ⟨.delete, [startIndex, count]⟩)

/-- The bytes of a table word, first byte in its low bits, followed by zeros to the longest command
payload, 6 bytes (R76; log 14). -/
def tableBytes (nbits w : Nat) : List Byte :=
  (List.range (max 6 ((nbits + 7) / 8))).map fun k => BitVec.ofNat 8 (w % 2 ^ nbits / 256 ^ k)

/-- Whether a table word is read as the byte at wire offset 6. DESIGN CHOICE (safe): a word of one byte that
is a package identifier is; every other word is a command payload (log 14). -/
def isPidWord (nbits w : Nat) : Bool :=
  decide (nbits ≤ 8) && [0x01, 0x02, 0x07, 0x08].contains (BitVec.ofNat 8 (w % 2 ^ nbits))

/-- A table word laid out as the hardware holds it: a package identifier in the shortest well-formed packet
of its type, address 0 and payload empty or, for an acknowledgement, the one byte 0x00 (R66), or a command
payload (R65). -/
def tableLayout (nbits w : Nat) : Port × List Byte :=
  if isPidWord nbits w then
    let pid : Byte := BitVec.ofNat 8 (w % 2 ^ nbits)
    (.wire, rawFrame 0 pid (if pid = 0x07 then [0x00] else []))
  else (.command, tableBytes nbits w)

/-- The instruction the decoder reads from a word of spec/opcode_table.json (log 14). -/
def decodeTableWord (nbits w : Nat) : Option Instr :=
  match decode Config.defaultCmdTab (tableLayout nbits w).1 (tableLayout nbits w).2 with
  | .ok (i, _) => some i
  | .error _ => none

end Sys2Proof
end

