-- ==== Sys2Proof/Machine/State.lean ====
section
/-! DEFINITION. The state of the packet engine, the events of its environment, the outcomes of an exchange and
the reasons a step can stop (spec 10_state.md, 60_exceptions.md R200, R201). -/

namespace Sys2Proof.Machine

/-- `SSTATE`: the six session states (R12). -/
inductive SState
  | idle | sent | awaitingFirstPacket | awaitingMore | complete | failed
  deriving DecidableEq, Repr, Inhabited

/-- The causes of a failed exchange (R201). -/
inductive Cause
  | transportError | badMagic | checksumError | payloadTooLarge | timeout
  | badLength | unexpectedPacket | malformedAck | asmOverflow | cancelled
  deriving DecidableEq, Repr, Inhabited

/-- A value of the spec's type `Outcome`: how an exchange ended (R200). -/
inductive Result
  | success (c : CmdId) (data : List Byte) (fields : Option (List (Config.FieldName × Nat)))
  | data (bytes : List Byte)
  | deviceError (code : Byte) (category : Config.Category)
  | failed (cause : Cause)
  deriving DecidableEq, Repr

/-- How an exchange completed: by an acknowledgement or by an end-of-data packet (R140). -/
inductive Completion
  | ack | xfer
  deriving DecidableEq, Repr

/-- What the environment does after the events listed so far (R161, R188; log 1). -/
inductive Onward
  /-- Nothing more: the block waits. -/
  | quiet
  /-- These events in turn, over and over. -/
  | again (cycle : List Event)
  /-- An endless sequence that nothing constrains, `Config.freeEvent`, from a position on. -/
  | free (position : Nat)
  deriving DecidableEq, Repr

/-- The state of the machine. The first field is the block's parameters (log 3), the next ten lines are
its registers (R10), and the last five are the model's own (logs 1, 5 and 9). -/
structure State where
  /-- The parameters of R6 and R22, which no step writes. -/
  params     : Config.Params
  /-- `ADDR` (R11). -/
  addr       : Address
  /-- `SSTATE` (R12). -/
  sstate     : SState
  /-- `CUR_CMD` (R13). -/
  curCmd     : Command
  /-- `TXBUF` (R14). -/
  txBuf      : List Byte
  /-- `TXPOS` (R14). -/
  txPos      : Nat
  /-- `RXWIN` (R15). -/
  rxWin      : List Byte
  /-- `ASM` (R16). -/
  asm        : List Byte
  /-- `RXADDR` (R18). -/
  rxAddr     : Address
  /-- `RXPID` (R18). -/
  rxPid      : Byte
  /-- `RESULT`, `none` for the spec's `None` (R17). -/
  result     : Option Result
  /-- `CANCEL_PEND` (R19). -/
  cancelPend : Bool
  /-- The events to come, in order (R30, R161; log 1). -/
  events     : List Event
  /-- What comes after them (R161, R188; log 1). -/
  onward     : Onward
  /-- The bytes handed to the transport's write side, oldest first (R40, R165; log 9). -/
  wire       : List Byte
  /-- The outcomes the host has taken, oldest first (R184; log 9). -/
  taken      : List Result
  /-- The number of the next free value (log 5). -/
  freeIdx    : Nat
  deriving DecidableEq, Repr

/-- The machine stops with a fault. -/
inductive Fault
  /-- Raised by `TxByte` in `Sent` where `TXBUF` has no byte at `TXPOS`: the read is not defined (R9), and
  R24(c) rules the state out. Safe: it never happens from a state with the invariant (log 17). -/
  | txIndexOutOfRange
  deriving DecidableEq, Repr

/-- The model does not accept the instruction or the event. -/
inductive Refusal
  /-- Raised by an arm of `exec` without a meaning; there is none. Safe. -/
  | notModelled (mnemonic : String)
  /-- Raised by a command issued outside `Idle`: not accepted (R162; U18 says refuse). Safe (log 2). -/
  | busy
  /-- Raised by a command whose arguments do not fit its row of `CMDTAB`: ill-typed (U19 says refuse). Safe
  (logs 2 and 18). -/
  | illTyped
  /-- Raised by an event in a state where R30 and R160 do not enable it: it cannot occur. Safe (log 2). -/
  | notEnabled
  /-- Raised by `Cancel` where `HAS_CANCEL` is false: it never occurs (U16 says refuse). Safe (log 2). -/
  | cancelUnsupported
  deriving DecidableEq, Repr

/-- The state after reset (R32), with `ADDR` and the parameters at the values logs 4, 6, 7 and 8 name and the
registers R32 calls unspecified at free values (log 5). -/
def State.reset : State where
  params     := Config.defaultParams
  addr       := Config.resetAddress
  sstate     := .idle
  curCmd     := Config.freeCommand 0
  txBuf      := []
  txPos      := 0
  rxWin      := []
  asm        := []
  rxAddr     := Config.freeAddress 0
  rxPid      := Config.freePid 0
  result     := none
  cancelPend := false
  events     := []
  onward     := .quiet
  wire       := []
  taken      := []
  freeIdx    := 1

end Sys2Proof.Machine
end

