-- ==== Sys2Proof/Machine/Flags.lean ====
section
/-! DEFINITION. What plays the part of flags: the verdict on the window (spec 10_state.md R20), the checksum
accumulators (R21), the classes of states, and the numeric encodings of R12, R17 and R201. -/

namespace Sys2Proof.Machine

/-- The verdict on `RXWIN`, recomputed and never stored (R20). -/
def windowVerdict (s : State) : Verdict := decodeFrame s.rxWin

/-- The cause a verdict raises: the fatal verdicts have one, `Ok` and `Incomplete` none (R170, R202). -/
def verdictCause : Verdict → Option Cause
  | .badMagic => some .badMagic
  | .badLength => some .badLength
  | .checksumError => some .checksumError
  | .ok _ _ _ _ => none
  | .incomplete => none

/-- The two states in which bytes are read into the window (R168). -/
def isAwaiting : SState → Bool
  | .awaitingFirstPacket => true
  | .awaitingMore => true
  | .idle => false
  | .sent => false
  | .complete => false
  | .failed => false

/-- The two states that hold an outcome (R24(e)). -/
def isEnded : SState → Bool
  | .complete => true
  | .failed => true
  | .idle => false
  | .sent => false
  | .awaitingFirstPacket => false
  | .awaitingMore => false

/-- The accumulator `TXSUM`: the sum over the summed bytes of `TXBUF[0..TXPOS)`, the frame's offsets from 6 up
to its checksum (R21, R92). -/
def txSum (s : State) : Word16 :=
  serialSum (slice s.txBuf 6 (min s.txPos (s.txBuf.length - 2)))

/-- The accumulator `RXSUM`: the sum over the summed bytes of `RXWIN`, offsets 6 up to the end of the payload
its length field gives (R21, R92). -/
def rxSum (s : State) : Word16 :=
  serialSum (slice s.rxWin 6 (if s.rxWin.length < 9 then s.rxWin.length else 7 + lengthField s.rxWin))

/-- The timer runs in the two awaiting states and is stopped elsewhere (R213). -/
def timerRunning (s : State) : Bool := isAwaiting s.sstate

/-- The numeric encoding of `SSTATE` (R12). -/
def sstateCode : SState → BitVec 3
  | .idle => 0
  | .sent => 1
  | .awaitingFirstPacket => 2
  | .awaitingMore => 3
  | .complete => 4
  | .failed => 5

/-- The state of a numeric encoding; 6 and 7 are never taken (R12, U23). -/
def sstateOfCode (v : BitVec 3) : Option SState :=
  [SState.idle, .sent, .awaitingFirstPacket, .awaitingMore, .complete, .failed][v.toNat]?

/-- The number of a cause, `RESULT.cause` (R201). -/
def causeCode : Cause → BitVec 4
  | .transportError => 1
  | .badMagic => 2
  | .checksumError => 3
  | .payloadTooLarge => 4
  | .timeout => 5
  | .badLength => 6
  | .unexpectedPacket => 7
  | .malformedAck => 8
  | .asmOverflow => 9
  | .cancelled => 10

/-- The number of an outcome's kind, `RESULT.kind` (R17). -/
def resultKind : Option Result → BitVec 3
  | none => 0
  | some (.success _ _ _) => 1
  | some (.data _) => 2
  | some (.deviceError _ _) => 3
  | some (.failed _) => 4

/-- The index of a category, `RESULT.cat`. DESIGN CHOICE (safe): the order in which R144 lists them, then the
open ones; the spec gives no numbers and no rule reads them (log 7). -/
def categoryIndex : Config.Category → Nat
  | .communicationError => 0
  | .noFinger => 1
  | .mismatch => 2
  | .libraryFull => 3
  | .unknown => 4
  | .other tag => 5 + tag

end Sys2Proof.Machine
end

