-- ==== Sys2Proof/Machine/Response.lean ====
section
/-! DEFINITION. The response decoder (spec 43_response_decoder.md). -/

namespace Sys2Proof.Machine

/-- `ERRCAT(conf)`: the category of a confirmation code, `Unknown` where the table has none (R144). -/
def errorCategory (errCat : List (Byte × Config.Category)) (conf : Byte) : Config.Category :=
  (errCat.lookup conf).getD .unknown

/-- `data` cut into fields in order, big-endian, without padding (R147). -/
def cutFields : List Config.FieldSpec → List Byte → List (Config.FieldName × Nat)
  | [], _ => []
  | f :: fs, bytes => (f.name, readBE (bytes.take f.width)) :: cutFields fs (bytes.drop f.width)

/-- `Fields(layout, data)`: none for an absent layout or a length that does not match (R147). -/
def fieldView (layout : Option (List Config.FieldSpec)) (bytes : List Byte) :
    Option (List (Config.FieldName × Nat)) :=
  match layout with
  | none => none
  | some fs =>
    if bytes.length = (fs.map Config.FieldSpec.width).sum then some (cutFields fs bytes) else none

/-- The only failure of the response decoder (R145, R151). -/
inductive RespError
  | malformedAck
  deriving DecidableEq, Repr

/-- `RespDecode(c, kind, payload)` (R140 to R146). -/
def respDecode (p : Config.Params) (c : CmdId) (kind : Completion) (payload : List Byte) :
    Except RespError Result :=
  match kind with
  | .xfer => .ok (.data payload)                                             -- R146
  | .ack =>
    match payload with
    | [] => .error .malformedAck                                             -- R145
    | conf :: bytes =>
      if conf = 0x00 then .ok (.success c bytes (fieldView (p.respLayout.lookup c) bytes))  -- R142
      else .ok (.deviceError conf (errorCategory p.errCat conf))             -- R143

end Sys2Proof.Machine
end

