-- ==== Sys2Proof/Machine/Ops.lean ====
section
/-! DEFINITION. The shared operations of the session: failing an exchange and returning from it, completing it,
taking a packet, appending to the reassembly buffer, issuing a command (spec 44_session_fsm.md,
60_exceptions.md R208, R210). -/

namespace Sys2Proof.Machine

/-- `raise cause`: the failure entry (R208). -/
def raise (cause : Cause) (s : State) : State :=
  { s with
    rxWin      := []
    asm        := []
    txBuf      := []
    txPos      := 0
    cancelPend := false
    result     := some (.failed cause)
    sstate     := .failed }

/-- The return from `Complete` or `Failed`: the host gets the value of `RESULT`, and the block goes to `Idle`
(R184, R210). Where `RESULT` is `None`, which R24(e) rules out, there is no value to hand over (log 20). -/
def takeOutcome (s : State) : State :=
  { s with
    taken  := s.taken ++ s.result.toList
    result := none
    sstate := .idle }

/-- Completion with `(kind, bytes)` (R183). -/
def complete (kind : Completion) (bytes : List Byte) (s : State) : State :=
  match respDecode s.params s.curCmd.id kind bytes with
  | .ok o => { s with result := some o, rxWin := [], asm := [], sstate := .complete }
  | .error .malformedAck => raise .malformedAck s

/-- A packet was decoded: the window is emptied and the observation registers written (R171). -/
def acceptPacket (address : Address) (pid : Byte) (s : State) : State :=
  { s with rxWin := [], rxAddr := address, rxPid := pid }

/-- Whether a reassembled payload of `n` bytes fits `ASM_CAP` (R179). -/
def fitsAsm (cap : Option Nat) (n : Nat) : Bool :=
  match cap with
  | none => true
  | some c => decide (n ≤ c)

/-- A data packet's payload is appended to `ASM` and more packets are awaited, or the buffer overflows (R174,
R176, R179). -/
def appendChunk (payload : List Byte) (s : State) : State :=
  if fitsAsm s.params.asmCap (s.asm.length + payload.length) then
    { s with asm := s.asm ++ payload, sstate := .awaitingMore }
  else raise .asmOverflow s

/-- The final packet of a transfer completes it with the reassembled bytes, or the buffer overflows (R177,
R179). -/
def finishTransfer (payload : List Byte) (s : State) : State :=
  if fitsAsm s.params.asmCap (s.asm.length + payload.length) then
    complete .xfer (s.asm ++ payload) s
  else raise .asmOverflow s

/-- A command is accepted (R163), rejected before any I/O (R164), or not accepted (R162, U18, U19; log 2). -/
def issueCommand (c : Command) (s : State) : Host.Outcome State Fault Refusal :=
  if s.sstate ≠ .idle then .refused .busy
  else if !commandTyped s.params.cmdTab c then .refused .illTyped
  else
    match encodeFrame s.addr 0x01 (cmdEncode s.params.cmdTab c) with
    | .ok frame => .next { s with curCmd := c, txBuf := frame, txPos := 0, sstate := .sent }
    | .error .payloadTooLarge =>
      .next { s with curCmd := c, result := some (.failed .payloadTooLarge), sstate := .failed }

/-- A packet without a role in the state that awaits it (R175, R178). -/
def unexpectedPacket (address : Address) (pid : Byte) (s : State) : State :=
  raise .unexpectedPacket (acceptPacket address pid s)

end Sys2Proof.Machine
end

