-- ==== Sys2Proof/Machine/Commands.lean ====
section
/-! DEFINITION. The meanings of the eight commands: each is the event `Issue` of that command (spec
42_command_encoder.md R123 to R130, 44_session_fsm.md R163, R164). -/

namespace Sys2Proof.Machine

/-- `AUTH password` (R123). -/
def execAuth (password : Nat) (s : State) : Host.Outcome State Fault Refusal :=
  issueCommand ⟨.auth, [password]⟩ s

/-- `STATUS` (R124). -/
def execStatus (s : State) : Host.Outcome State Fault Refusal :=
  issueCommand ⟨.status, []⟩ s

/-- `CAPTURE` (R125). -/
def execCapture (s : State) : Host.Outcome State Fault Refusal :=
  issueCommand ⟨.capture, []⟩ s

/-- `CONVERT buffer` (R126). -/
def execConvert (buffer : Nat) (s : State) : Host.Outcome State Fault Refusal :=
  issueCommand ⟨.convert, [buffer]⟩ s

/-- `SEARCH buffer start_page page_span` (R127). -/
def execSearch (buffer startPage pageSpan : Nat) (s : State) :
    Host.Outcome State Fault Refusal :=
  issueCommand ⟨.search, [buffer, startPage, pageSpan]⟩ s

/-- `ENROLL` (R128). -/
def execEnroll (s : State) : Host.Outcome State Fault Refusal :=
  issueCommand ⟨.enroll, []⟩ s

/-- `STORE buffer index` (R129). -/
def execStore (buffer index : Nat) (s : State) : Host.Outcome State Fault Refusal :=
  issueCommand ⟨.store, [buffer, index]⟩ s

/-- `DELETE start_index count` (R130). -/
def execDelete (startIndex count : Nat) (s : State) : Host.Outcome State Fault Refusal :=
  issueCommand ⟨.delete, [startIndex, count]⟩ s

end Sys2Proof.Machine
end

