-- ==== Sys2Proof/Machine/Packets.lean ====
section
/-! DEFINITION. The meanings of the four packet types: the receipt of a whole well-formed packet, in the step
of its last byte (spec 44_session_fsm.md R171 to R179, R185; log 12). In the four states that drain, its
bytes are dropped and no register changes (R185). -/

namespace Sys2Proof.Machine

/-- A received `CMD` packet, identifier 0x01: no role in a response (R64, R175, R178). -/
def execCmd (address : Address) (_payload : List Byte) (s : State) : Host.Outcome State Fault Refusal :=
  match s.sstate with
  | .awaitingFirstPacket => .next (unexpectedPacket address 0x01 s)
  | .awaitingMore => .next (unexpectedPacket address 0x01 s)
  | .idle => .next s
  | .sent => .next s
  | .complete => .next s
  | .failed => .next s

/-- A received `DATA` packet, identifier 0x02 (R174, R176, R179). The first one fills an `ASM` that R24(b)
leaves empty. -/
def execData (address : Address) (payload : List Byte) (s : State) : Host.Outcome State Fault Refusal :=
  match s.sstate with
  | .awaitingFirstPacket => .next (appendChunk payload { acceptPacket address 0x02 s with asm := [] })
  | .awaitingMore => .next (appendChunk payload (acceptPacket address 0x02 s))
  | .idle => .next s
  | .sent => .next s
  | .complete => .next s
  | .failed => .next s

/-- A received `ACK` packet, identifier 0x07: it completes the exchange as its first packet (R172, R183) and
is unexpected while assembling (R178). -/
def execAck (address : Address) (payload : List Byte) (s : State) : Host.Outcome State Fault Refusal :=
  match s.sstate with
  | .awaitingFirstPacket => .next (complete .ack payload (acceptPacket address 0x07 s))
  | .awaitingMore => .next (unexpectedPacket address 0x07 s)
  | .idle => .next s
  | .sent => .next s
  | .complete => .next s
  | .failed => .next s

/-- A received `ENDDATA` packet, identifier 0x08: a one-packet transfer that does not pass through `ASM`
(R173), or the end of one being assembled (R177, R179). -/
def execEndData (address : Address) (payload : List Byte) (s : State) :
    Host.Outcome State Fault Refusal :=
  match s.sstate with
  | .awaitingFirstPacket => .next (complete .xfer payload (acceptPacket address 0x08 s))
  | .awaitingMore => .next (finishTransfer payload (acceptPacket address 0x08 s))
  | .idle => .next s
  | .sent => .next s
  | .complete => .next s
  | .failed => .next s

end Sys2Proof.Machine
end

