-- ==== Sys2Proof/Machine/Dispatch.lean ====
section
/-! DEFINITION. One arm per instruction. -/

namespace Sys2Proof.Machine

def exec (i : Instr) (s : State) : Host.Outcome State Fault Refusal :=
  match i with
  | .cmd address payload => Sys2Proof.Machine.execCmd address payload s
  | .data address payload => Sys2Proof.Machine.execData address payload s
  | .ack address payload => Sys2Proof.Machine.execAck address payload s
  | .endData address payload => Sys2Proof.Machine.execEndData address payload s
  | .auth password => Sys2Proof.Machine.execAuth password s
  | .status => Sys2Proof.Machine.execStatus s
  | .capture => Sys2Proof.Machine.execCapture s
  | .convert buffer => Sys2Proof.Machine.execConvert buffer s
  | .search buffer startPage pageSpan => Sys2Proof.Machine.execSearch buffer startPage pageSpan s
  | .enroll => Sys2Proof.Machine.execEnroll s
  | .store buffer index => Sys2Proof.Machine.execStore buffer index s
  | .delete startIndex count => Sys2Proof.Machine.execDelete startIndex count s

end Sys2Proof.Machine
end

