-- ==== Sys2Proof/Machine/Session.lean ====
section
/-! DEFINITION. The events of the session (spec 44_session_fsm.md, 10_state.md R30, 70_reset_and_hazards.md R230),
and where an instruction is placed for the next step to run it. -/

namespace Sys2Proof.Machine

/-- `TakeResult` (R184). -/
def eventTakeResult (s : State) : Host.Outcome State Fault Refusal :=
  if isEnded s.sstate then .next (takeOutcome s) else .refused .notEnabled

/-- `Cancel`: at once in an awaiting state, held until the end of the write in `Sent` (R182). -/
def eventCancel (s : State) : Host.Outcome State Fault Refusal :=
  if !s.params.hasCancel then .refused .cancelUnsupported
  else
    match s.sstate with
    | .sent => .next { s with cancelPend := true }
    | .awaitingFirstPacket => .next (raise .cancelled s)
    | .awaitingMore => .next (raise .cancelled s)
    | .idle => .refused .notEnabled
    | .complete => .refused .notEnabled
    | .failed => .refused .notEnabled

/-- `Reset` (R230, R32): `ADDR` stays, and the registers R32 calls unspecified take fresh free values (log 5). -/
def resetBlock (s : State) : State :=
  { s with
    sstate     := .idle
    curCmd     := Config.freeCommand s.freeIdx
    txBuf      := []
    txPos      := 0
    rxWin      := []
    asm        := []
    rxAddr     := Config.freeAddress s.freeIdx
    rxPid      := Config.freePid s.freeIdx
    result     := none
    cancelPend := false
    freeIdx    := s.freeIdx + 1 }

/-- The end of the write: to the reads, or to the failure a pending cancel asked for (R166). -/
def finishWrite (s : State) : State :=
  let s' := { s with txBuf := [], txPos := 0 }
  if s.cancelPend then raise .cancelled s'
  else { s' with sstate := .awaitingFirstPacket, rxWin := [], asm := [] }

/-- `TxByte`: the transport accepts `TXBUF[TXPOS]` (R165, R166). -/
def eventTxByte (s : State) : Host.Outcome State Fault Refusal :=
  if s.sstate ≠ .sent then .refused .notEnabled
  else
    match s.txBuf[s.txPos]? with
    | none => .fault .txIndexOutOfRange
    | some b =>
      let s' := { s with wire := s.wire ++ [b] }
      if s.txPos + 1 < s.txBuf.length then .next { s' with txPos := s.txPos + 1 }
      else .next (finishWrite s')

/-- `TxError` (R167). -/
def eventTxError (s : State) : Host.Outcome State Fault Refusal :=
  if s.sstate = .sent then .next (raise .transportError s) else .refused .notEnabled

/-- `RxError` (R181). -/
def eventRxError (s : State) : Host.Outcome State Fault Refusal :=
  if isAwaiting s.sstate then .next (raise .transportError s) else .refused .notEnabled

/-- `Timeout` (R180). -/
def eventTimeout (s : State) : Host.Outcome State Fault Refusal :=
  if isAwaiting s.sstate then .next (raise .timeout s) else .refused .notEnabled

/-- The host writes `ADDR`, in `Idle` only (R11, R215; log 10). -/
def eventConfigure (address : Address) (s : State) : Host.Outcome State Fault Refusal :=
  if s.sstate = .idle then .next { s with addr := address } else .refused .notEnabled

/-- The verdict on the extended window is acted on at once (R168 to R171). A packet whose identifier has no
role is unexpected in both awaiting states (R64, R175, R178; log 13). -/
def judgeWindow (w : List Byte) (s : State) : Host.Outcome State Fault Refusal :=
  match decodeFrame w with
  | .incomplete => .next { s with rxWin := w }
  | .badMagic => .next (raise .badMagic s)
  | .badLength => .next (raise .badLength s)
  | .checksumError => .next (raise .checksumError s)
  | .ok address pid payload _ =>
    match packetInstr address pid payload with
    | some i => exec i s
    | none => .next (unexpectedPacket address pid s)

/-- `RxByte(b)`: judged in an awaiting state (R168), dropped in the others (R185). -/
def eventRxByte (b : Byte) (s : State) : Host.Outcome State Fault Refusal :=
  if isAwaiting s.sstate then judgeWindow (s.rxWin ++ [b]) s else .next s

/-- `Issue` of a command: the instruction that issues it, or, for a command that is no row of the opcode table, the
same operation without an instruction (R132, R163). -/
def eventIssue (c : Command) (s : State) : Host.Outcome State Fault Refusal :=
  match commandInstr c with
  | some i => exec i s
  | none => issueCommand c s

/-- What an event does (R30, R160). -/
def handleEvent (e : Event) (s : State) : Host.Outcome State Fault Refusal :=
  match e with
  | .issue c => eventIssue c s
  | .takeResult => eventTakeResult s
  | .cancel => eventCancel s
  | .reset => .next (resetBlock s)
  | .txByte => eventTxByte s
  | .txError => eventTxError s
  | .rxByte b => eventRxByte b s
  | .rxError => eventRxError s
  | .timeout => eventTimeout s
  | .configure address => eventConfigure address s

/-- The event that is due once the listed ones are used up, and what comes after it. -/
def Onward.due : Onward → Option Event
  | .quiet => none
  | .again [] => none
  | .again (e :: _) => some e
  | .free position => some (Config.freeEvent position)

/-- What is left of the environment's endless part when one event of it is taken. -/
def Onward.next : Onward → Onward
  | .quiet => .quiet
  | .again [] => .again []
  | .again (e :: es) => .again (es ++ [e])
  | .free position => .free (position + 1)

/-- The event the environment makes happen next; none where it does nothing more (R161, R188; log 1). -/
def dueEvent (s : State) : Option Event :=
  match s.events with
  | e :: _ => some e
  | [] => s.onward.due

/-- The schedule without its next event; nothing else changes. -/
def advance (s : State) : State :=
  match s.events with
  | _ :: es => { s with events := es }
  | [] => { s with onward := s.onward.next }

/-- One event of the schedule; with none to come the block waits (R161, R188; log 1). -/
def nextEvent (s : State) : Host.Outcome State Fault Refusal :=
  match dueEvent s with
  | none => .next s
  | some e => handleEvent e (advance s)

/-- A table word placed for the next step to run it: a command as the next `Issue`; a packet as a window that
holds all its bytes but the last and the `RxByte` of that last byte, in an awaiting state. A word the decoder
refuses places nothing (log 15). -/
def placeInstruction (nbits w : Nat) (s : State) : State :=
  match decodeTableWord nbits w with
  | none => s
  | some i =>
    match instrCommand i with
    | some c => { s with events := .issue c :: s.events }
    | none =>
      let bytes := (tableLayout nbits w).2
      { s with
        sstate := if isAwaiting s.sstate then s.sstate else .awaitingFirstPacket
        rxWin  := bytes.dropLast
        events := .rxByte (bytes.getLastD 0) :: s.events }

end Sys2Proof.Machine
end

