-- ==== Sys2Proof/Machine/Step.lean ====
section
/-! DEFINITION. One step of the machine: one event of one agent (spec 10_state.md R30), and the placing of an
instruction for the next step. -/

namespace Sys2Proof.Machine

/-- One step (R30, R161). -/
def step (s : State) : Host.Outcome State Fault Refusal := nextEvent s

/-- The state whose next step runs the instruction of a table word (log 15). -/
def State.withFetchWord (s : State) (nbits w : Nat) : State := placeInstruction nbits w s

end Sys2Proof.Machine
end

