-- ==== Sys2Proof/Machine/Signal.lean ====
section
/-! DEFINITION. The signal-level picture, which no rule and no step depends on: the illustrative ports (spec
10_state.md R31), the order of events seen in one clock cycle (60_exceptions.md R206; log 22) and the
illustrative down-counter (R213; log 16). -/

namespace Sys2Proof.Machine

/-- `cmd_ready`: high only in `Idle` (R31). -/
def cmdReady (s : State) : Bool := decide (s.sstate = .idle)

/-- `res_valid`: high in `Complete` and `Failed` (R31). -/
def resValid (s : State) : Bool := isEnded s.sstate

/-- `res_kind` (R17). -/
def resKind (s : State) : BitVec 3 := resultKind s.result

/-- `res_cause`: the number of the cause of a failure (R17, R201). -/
def resCause (s : State) : Option (BitVec 4) :=
  match s.result with
  | some (.failed cause) => some (causeCode cause)
  | _ => none

/-- `res_code`: the raw confirmation code of a device error (R17). -/
def resCode (s : State) : Option Byte :=
  match s.result with
  | some (.deviceError code _) => some code
  | _ => none

/-- `res_cat`: the category index of a device error (R17). -/
def resCat (s : State) : Option Nat :=
  match s.result with
  | some (.deviceError _ category) => some (categoryIndex category)
  | _ => none

/-- `res_data` (R17). -/
def resData (s : State) : List Byte :=
  match s.result with
  | some (.success _ bytes _) => bytes
  | some (.data bytes) => bytes
  | _ => []

/-- `res_len` (R17). -/
def resLen (s : State) : Nat := (resData s).length

/-- `tx_valid`: a byte of the frame is still to go (R31). -/
def txValid (s : State) : Bool := decide (s.sstate = .sent)

/-- `tx_data` (R31, R165). -/
def txData (s : State) : Option Byte := s.txBuf[s.txPos]?

/-- `rx_ready`: a byte is taken in every state (R30, R185). -/
def rxReady (_s : State) : Bool := true

/-- In which states an event is enabled (R30, R182, R11; logs 2 and 10). -/
def eventEnabled (e : Event) (s : State) : Bool :=
  match e with
  | .issue c => decide (s.sstate = .idle) && commandTyped s.params.cmdTab c
  | .takeResult => isEnded s.sstate
  | .cancel => s.params.hasCancel && (decide (s.sstate = .sent) || isAwaiting s.sstate)
  | .reset => true
  | .txByte => decide (s.sstate = .sent)
  | .txError => decide (s.sstate = .sent)
  | .rxByte _ => true
  | .rxError => isAwaiting s.sstate
  | .timeout => isAwaiting s.sstate
  | .configure _ => decide (s.sstate = .idle)

/-- The place of an event in the order of R206. DESIGN CHOICE (safe): the events R206 does not list come last
(log 22). -/
def eventRank : Event → Nat
  | .reset => 0
  | .txError => 1
  | .rxError => 1
  | .cancel => 2
  | .txByte => 3
  | .rxByte _ => 3
  | .timeout => 4
  | .issue _ => 5
  | .takeResult => 5
  | .configure _ => 5

/-- The events of one cycle in the order of R206. -/
def arbitrate (cycle : List Event) : List Event :=
  (List.range 6).flatMap fun r => cycle.filter fun e => eventRank e == r

/-- The events in turn, one that is no longer enabled being dropped (R206). DESIGN CHOICE (safe): R206 does not say
whether an event must be enabled at the start of the cycle; this asks at the event's turn, so a `TakeResult` that a
failure of the same cycle enables is taken in that cycle (log 22). -/
def runArbitrated : List Event → State → Host.Outcome State Fault Refusal
  | [], s => .next s
  | e :: es, s =>
    if eventEnabled e s then
      match handleEvent e s with
      | .next t => runArbitrated es t
      | .fault r => .fault r
      | .refused r => .refused r
    else runArbitrated es s

/-- One clock cycle of a signal-level realisation (R206). -/
def signalCycle (cycle : List Event) (s : State) : Host.Outcome State Fault Refusal :=
  runArbitrated (arbitrate cycle) s

/-- The down-counter after an event that took `s` to `t`: loaded with `TIMEOUT` on entry to
`AwaitingFirstPacket` and on every `RxByte` accepted in an awaiting state (R213). -/
def timerAfterEvent (timeout : Nat) (e : Event) (s t : State) (count : Nat) : Nat :=
  match e with
  | .rxByte _ => if isAwaiting s.sstate then timeout else count
  | _ => if s.sstate ≠ .awaitingFirstPacket ∧ t.sstate = .awaitingFirstPacket then timeout else count

/-- One clock tick of the down-counter: it counts only in the awaiting states (R213). -/
def timerTick (s : State) (count : Nat) : Nat :=
  if timerRunning s then count - 1 else count

/-- `rx_timeout`: raised at zero in an awaiting state (R213). -/
def rxTimeout (s : State) (count : Nat) : Bool :=
  timerRunning s && decide (count = 0)

end Sys2Proof.Machine
end

