-- ==== Sys2Proof/Machine/Split.lean ====
section
/-! DEFINITION. Outbound multi-packet payloads: a function of the codec only (spec 44_session_fsm.md R190,
R192). -/

namespace Sys2Proof.Machine

/-- `Split` with at most `fuel` cuts. -/
def splitFuel : Nat → Nat → List Byte → List (Byte × List Byte)
  | 0, _, bytes => [(0x08, bytes)]
  | fuel + 1, chunk, bytes =>
    if bytes.length ≤ chunk then [(0x08, bytes)]
    else (0x02, bytes.take chunk) :: splitFuel fuel chunk (bytes.drop chunk)

/-- `Split(data, chunk)` (R190): every cut takes at least one byte, so there are at most as many as there are
bytes. -/
def splitPayload (bytes : List Byte) (chunk : Config.Chunk) : List (Byte × List Byte) :=
  splitFuel bytes.length chunk.val bytes

/-- The packets of a split, each framed with the block's address (R190). -/
def splitFrames (address : Address) (bytes : List Byte) (chunk : Config.Chunk) : List (List Byte) :=
  (splitPayload bytes chunk).map fun p => rawFrame address p.1 p.2

/-- The packets of a logical payload at the device's reported packet size, `CHUNK` (R6, R190). -/
def splitForDevice (s : State) (bytes : List Byte) : List (List Byte) :=
  splitFrames s.addr bytes s.params.chunk

end Sys2Proof.Machine
end

