-- ==== Sys2Proof/Safety.lean ====
section
/-! DEFINITION. The invariant that holds after every step (spec 10_state.md R24), and the vocabulary of the
claims. -/

namespace Sys2Proof.Machine

/-- Whether an outcome is a failure (R200). -/
def isFailure : Result → Bool
  | .failed _ => true
  | .success _ _ _ => false
  | .data _ => false
  | .deviceError _ _ => false

/-- The invariant of R24, clause by clause, with the bounds of R14, R16 and R19 and with which outcome each
ended state holds (R200). -/
structure Inv (s : State) : Prop where
  /-- R24(a): a window is held only in an awaiting state. -/
  window_awaiting : s.rxWin ≠ [] → isAwaiting s.sstate = true
  /-- R24(a): the window is judged incomplete. -/
  window_incomplete : decodeFrame s.rxWin = .incomplete
  /-- R24(b): reassembled bytes are held only in `AwaitingMore`. -/
  asm_awaiting_more : s.asm ≠ [] → s.sstate = .awaitingMore
  /-- R16: the reassembly buffer is within its capacity. -/
  asm_fits : fitsAsm s.params.asmCap s.asm.length = true
  /-- R24(c): a frame is held only in `Sent`. -/
  frame_sent : s.txBuf ≠ [] → s.sstate = .sent
  /-- R24(c): in `Sent` there is a byte still to go. -/
  sent_position : s.sstate = .sent → s.txPos < s.txBuf.length
  /-- R14, R24(d): outside `Sent` the index is 0. -/
  position_zero : s.sstate ≠ .sent → s.txPos = 0
  /-- R14: the frame is within its capacity. -/
  frame_bound : s.txBuf.length ≤ Config.maxFrame
  /-- R19, R24(d): a cancel is pending only in `Sent`, and only where the host can cancel. -/
  cancel_sent : s.cancelPend = true → s.sstate = .sent ∧ s.params.hasCancel = true
  /-- R24(e): an outcome is held exactly in `Complete` and `Failed`. -/
  result_ended : s.result.isSome = isEnded s.sstate
  /-- R200: `Failed` holds a failure, and `Complete` an outcome that is none. -/
  result_kind : ∀ r, s.result = some r → isFailure r = decide (s.sstate = .failed)

/-- The clean `Idle` state of R24(d). -/
structure CleanIdle (s : State) : Prop where
  idle : s.sstate = .idle
  window : s.rxWin = []
  reassembly : s.asm = []
  frame : s.txBuf = []
  position : s.txPos = 0
  no_cancel : s.cancelPend = false
  no_result : s.result = none

/-- The instruction codes of a command table are distinct. -/
def distinctCodes (tab : Config.CmdTab) : Prop :=
  ((cmdRows tab).map fun e => e.2.icode).Nodup

/-- The parameter widths of the eight rows are those of R72. -/
def defaultWidths (tab : Config.CmdTab) : Prop :=
  rowWidths tab.auth = [4] ∧ rowWidths tab.status = [] ∧ rowWidths tab.capture = [] ∧
  rowWidths tab.convert = [1] ∧ rowWidths tab.search = [1, 2, 2] ∧ rowWidths tab.enroll = [] ∧
  rowWidths tab.store = [1, 2] ∧ rowWidths tab.delete = [2, 2]

/-- A byte with one bit flipped (R114). -/
def flipBit (b : Byte) (k : Nat) : Byte := b ^^^ BitVec.ofNat 8 (2 ^ k)

/-- A byte sequence with one bit of the byte at an offset flipped (R114). -/
def flipAt (f : List Byte) (offset k : Nat) : List Byte :=
  f.set offset (flipBit (byteAt f offset) k)

end Sys2Proof.Machine
end

