-- ==== Sys2Proof/Certificates/Slice0/Obligations.lean ====
section
/-! DEFINITION. The statements for the provers. Each docstring names the rule of spec/ it formalises; one that says
"the spec's own decision D<n>" rests on 92_eei_decisions.md, not on the source document. -/

open Sys2Proof Sys2Proof.Machine

/-! ## Checksum, frame encoder, window decoder -/

/-- R90: the checksum is the byte-wise sum, the length field adding its two bytes separately, modulo 65536. -/
def Obligations.ChecksumAddsBytesModulo65536 : Prop :=
  ∀ (pid : Byte) (len : Word16) (payload : List Byte),
    (checksum pid len payload).toNat =
      (pid.toNat + len.toNat / 256 + len.toNat % 256 + (payload.map BitVec.toNat).sum) % 65536

/-- R91(b), R91(c), R92: the 16-bit accumulator over the summed bytes, in any order, ends at the checksum. -/
def Obligations.SerialAccumulatorInAnyOrderIsChecksum : Prop :=
  ∀ (pid : Byte) (len : Word16) (payload order : List Byte),
    order.Perm ([pid] ++ spellBE len.toNat 2 ++ payload) → serialSum order = checksum pid len payload

/-- R100, R101: `Encode` lays the frame out as the wire table has it, and fails exactly on a payload over 65533
bytes. -/
def Obligations.EncodeLaysOutTheFrame : Prop :=
  ∀ (address : Address) (pid : Byte) (payload : List Byte),
    (payload.length ≤ 65533 →
      encodeFrame address pid payload = .ok
        ([0xEF, 0x01] ++ spellBE address.toNat 4 ++ [pid] ++ spellBE (payload.length + 2) 2 ++ payload
          ++ spellBE (checksum pid (BitVec.ofNat 16 (payload.length + 2)) payload).toNat 2)) ∧
    (65533 < payload.length → encodeFrame address pid payload = .error .payloadTooLarge)

/-- R112: decoding an encoded packet gives it back, with every byte of the frame consumed. -/
def Obligations.DecodeOfEncodeIsThePacket : Prop :=
  ∀ (address : Address) (pid : Byte) (payload frame : List Byte),
    encodeFrame address pid payload = .ok frame →
      decodeFrame frame = .ok address pid payload frame.length

/-- R112, the other direction: the bytes a success consumed are the encoding of what it decoded, so the well-formed
packets are exactly the encoded ones. -/
def Obligations.DecodedBytesAreTheEncoding : Prop :=
  ∀ (w : List Byte) (address : Address) (pid : Byte) (payload : List Byte) (consumed : Nat),
    decodeFrame w = .ok address pid payload consumed →
      consumed = 11 + payload.length ∧ consumed ≤ w.length ∧
      encodeFrame address pid payload = .ok (w.take consumed)

/-- R113: every strict prefix of an encoded packet is incomplete. -/
def Obligations.StrictPrefixesAreIncomplete : Prop :=
  ∀ (address : Address) (pid : Byte) (payload frame : List Byte) (k : Nat),
    encodeFrame address pid payload = .ok frame → k < frame.length →
      decodeFrame (frame.take k) = .incomplete

/-- R111: a verdict other than `Incomplete` stays, with the same fields, whatever bytes follow. -/
def Obligations.VerdictsOtherThanIncompleteAreFinal : Prop :=
  ∀ (w more : List Byte), decodeFrame w ≠ .incomplete → decodeFrame (w ++ more) = decodeFrame w

/-- R24(a), R61: a window that is still incomplete is shorter than the longest frame. -/
def Obligations.IncompleteWindowIsShorterThanMaxFrame : Prop :=
  ∀ w : List Byte, decodeFrame w = .incomplete → w.length < 65544

/-- R107, R108: with the right magic and a length field of at least 2, a window that ends before the frame does is
incomplete, and one that holds the frame but another checksum is a checksum error, whatever follows. -/
def Obligations.ShortBodyIsIncompleteAndWrongSumIsChecksumError : Prop :=
  ∀ (a0 a1 a2 a3 pid l1 l0 : Byte) (body : List Byte), 2 ≤ l1.toNat * 256 + l0.toNat →
    (body.length < l1.toNat * 256 + l0.toNat →
      decodeFrame ([0xEF, 0x01, a0, a1, a2, a3, pid, l1, l0] ++ body) = .incomplete) ∧
    (∀ (payload more : List Byte) (c1 c0 : Byte), body = payload ++ [c1, c0] ++ more →
      payload.length + 2 = l1.toNat * 256 + l0.toNat →
      c1.toNat * 256 + c0.toNat ≠
        (pid.toNat + l1.toNat + l0.toNat + (payload.map BitVec.toNat).sum) % 65536 →
      decodeFrame ([0xEF, 0x01, a0, a1, a2, a3, pid, l1, l0] ++ body) = .checksumError)

/-- R104, R105, R106, the spec's own decisions D7 and D8: a wrong byte at offset 0 or 1 is a bad magic at once, a
header that is short and right so far is incomplete, and a length field of 0 or 1 is a bad length as soon as nine
bytes are there. -/
def Obligations.MagicHeaderAndLengthVerdicts : Prop :=
  (∀ (b : Byte) (w : List Byte), b ≠ 0xEF → decodeFrame (b :: w) = .badMagic) ∧
  (∀ (b : Byte) (w : List Byte), b ≠ 0x01 → decodeFrame (0xEF :: b :: w) = .badMagic) ∧
  (∀ w : List Byte, w.length < 7 → decodeFrame ([0xEF, 0x01] ++ w) = .incomplete) ∧
  decodeFrame [] = .incomplete ∧ decodeFrame [0xEF] = .incomplete ∧
  (∀ (a0 a1 a2 a3 pid l1 l0 : Byte) (body : List Byte), l1.toNat * 256 + l0.toNat < 2 →
    decodeFrame ([0xEF, 0x01, a0, a1, a2, a3, pid, l1, l0] ++ body) = .badLength)

/-- R114, R95: what one flipped bit of an encoded packet gives, by the field it is in: the magic, the address, the
length, and the identifier, payload or checksum. -/
def Obligations.OneFlippedBitByField : Prop :=
  ∀ (address : Address) (pid : Byte) (payload frame : List Byte) (offset k : Nat),
    encodeFrame address pid payload = .ok frame → offset < frame.length → k < 8 →
    (offset < 2 → decodeFrame (flipAt frame offset k) = .badMagic) ∧
    (2 ≤ offset → offset < 6 → ∃ other, other ≠ address ∧
      decodeFrame (flipAt frame offset k) = .ok other pid payload frame.length) ∧
    (offset = 6 ∨ 9 ≤ offset → decodeFrame (flipAt frame offset k) = .checksumError) ∧
    (offset = 7 ∨ offset = 8 →
      (payload.length + 2 < lengthField (flipAt frame offset k) →
        decodeFrame (flipAt frame offset k) = .incomplete) ∧
      (lengthField (flipAt frame offset k) < 2 → decodeFrame (flipAt frame offset k) = .badLength) ∧
      (2 ≤ lengthField (flipAt frame offset k) →
        lengthField (flipAt frame offset k) < payload.length + 2 →
        decodeFrame (flipAt frame offset k) = .checksumError ∨
        decodeFrame (flipAt frame offset k) =
          .ok address pid (payload.take (lengthField (flipAt frame offset k) - 2))
            (9 + lengthField (flipAt frame offset k))) ∧
      lengthField (flipAt frame offset k) ≠ payload.length + 2)

/-! ## Instructions: encoding -/

/-- Decode and encode agree for every command table with distinct instruction codes and whatever bytes follow: for
every well-formed instruction at its port, and for every typed command, those of added rows and of other parameter
lists included (R60, R63, R65, R68, R120, R132). -/
def Obligations.DecodeOfEncodeIsTheInstruction : Prop :=
  ∀ (tab : Config.CmdTab) (more : List Byte), distinctCodes tab →
    (∀ i : Instr, wellFormed tab i = true →
      decode tab (encode tab i).1 ((encode tab i).2 ++ more) = .ok (i, more)) ∧
    (∀ c : Command, commandTyped tab c = true → decodeCommand tab (cmdEncode tab c ++ more) = .ok (c, more))

/-- What the decoder answers is well formed, and its encoding is the bytes it read; the same of the commands of every
row (R62, R68, R120, R132). -/
def Obligations.DecodedInstructionIsWellFormed : Prop :=
  (∀ (tab : Config.CmdTab) (port : Port) (bytes : List Byte) (i : Instr) (more : List Byte),
    decode tab port bytes = .ok (i, more) →
      wellFormed tab i = true ∧ (encode tab i).1 = port ∧ (encode tab i).2 ++ more = bytes) ∧
  (∀ (tab : Config.CmdTab) (bytes : List Byte) (c : Command) (more : List Byte),
    decodeCommand tab bytes = .ok (c, more) → commandTyped tab c = true ∧ cmdEncode tab c ++ more = bytes)

/-- Words written out from the encodings of R63 and R72, with the codes of R73 (log 6), decode to what they stand
for. -/
def Obligations.WrittenOutWordsDecode : Prop :=
  decode Config.defaultCmdTab .command [0x13, 0x12, 0x34, 0x56, 0x78] = .ok (.auth 0x12345678, []) ∧
  decode Config.defaultCmdTab .command [0x04, 0x02, 0x01, 0x02, 0x03, 0x04] =
    .ok (.search 0x02 0x0102 0x0304, []) ∧
  decode Config.defaultCmdTab .command [0x0C, 0x00, 0x05, 0x00, 0x01] = .ok (.delete 5 1, []) ∧
  decode Config.defaultCmdTab .wire
    [0xEF, 0x01, 0xFF, 0xFF, 0xFF, 0xFF, 0x07, 0x00, 0x03, 0x00, 0x00, 0x0A] =
    .ok (.ack 0xFFFFFFFF [0x00], []) ∧
  decode Config.defaultCmdTab .wire
    [0xEF, 0x01, 0xFF, 0xFF, 0xFF, 0xFF, 0x02, 0x00, 0x05, 0x11, 0x22, 0x33, 0x00, 0x6D] =
    .ok (.data 0xFFFFFFFF [0x11, 0x22, 0x33], [])

/-- R120, R122: for every row, a command is typed exactly when it has one value below `256^w` per parameter; its
payload is then the instruction code and each value big-endian at its width, in table order, whatever the values,
and one more byte long than the sum of the widths. -/
def Obligations.CommandPayloadIsCodeThenParameters : Prop :=
  ∀ (tab : Config.CmdTab) (c : Command) (row : Config.CmdRow), cmdRow tab c.id = some row →
    (commandTyped tab c = true ↔ List.Forall₂ (fun w v => v < 256 ^ w) (rowWidths row) c.args) ∧
    (commandTyped tab c = true →
      cmdEncode tab c = row.icode :: ((rowWidths row).zip c.args).flatMap (fun p => spellBE p.2 p.1) ∧
      (cmdEncode tab c).length = 1 + (rowWidths row).sum)

/-- R123, R124, R125: the payloads of `AUTH`, `STATUS` and `CAPTURE`. -/
def Obligations.AuthStatusCapturePayloads : Prop :=
  ∀ (tab : Config.CmdTab) (password : BitVec 32), defaultWidths tab →
    cmdEncode tab ⟨.auth, [password.toNat]⟩ = [tab.auth.icode, password.extractLsb' 24 8,
      password.extractLsb' 16 8, password.extractLsb' 8 8, password.extractLsb' 0 8] ∧
    cmdEncode tab ⟨.status, []⟩ = [tab.status.icode] ∧
    cmdEncode tab ⟨.capture, []⟩ = [tab.capture.icode]

/-! ## Commands -/

/-- Every command completes in `Idle` (R163, the spec's own decision D2): typed by its row and within 65533 bytes, it
loads its frame and goes to `Sent`; nothing else changes, and no byte is written. This holds of the instruction that
issues it and of the step of its `Issue`, which a command of an added row has too (R132). -/
def Obligations.EveryCommandLoadsItsFrame : Prop :=
  ∀ (s : State) (c : Command), s.sstate = .idle → commandTyped s.params.cmdTab c = true →
    (cmdEncode s.params.cmdTab c).length ≤ 65533 →
    (∀ i, instrCommand i = some c →
      exec i s = .next { s with
        curCmd := c
        txBuf := rawFrame s.addr 0x01 (cmdEncode s.params.cmdTab c)
        txPos := 0
        sstate := .sent }) ∧
    (∀ es, s.events = .issue c :: es →
      step s = .next { s with
        events := es
        curCmd := c
        txBuf := rawFrame s.addr 0x01 (cmdEncode s.params.cmdTab c)
        txPos := 0
        sstate := .sent })

/-- `AUTH` completes (R123; the state is the spec's own decision D2): its frame carries the code and the password,
most significant byte first. -/
def Obligations.AuthLoadsCodeAndPassword : Prop :=
  ∀ (s : State) (password : BitVec 32), s.sstate = .idle → defaultWidths s.params.cmdTab →
    exec (.auth password.toNat) s = .next { s with
      curCmd := ⟨.auth, [password.toNat]⟩
      txBuf := rawFrame s.addr 0x01 [s.params.cmdTab.auth.icode, password.extractLsb' 24 8,
        password.extractLsb' 16 8, password.extractLsb' 8 8, password.extractLsb' 0 8]
      txPos := 0
      sstate := .sent }

/-- `STATUS`, `CAPTURE` and `ENROLL` complete (R124, R125, R128; decisions D2 and, for `ENROLL`, D6): the frame
carries the code alone. -/
def Obligations.StatusCaptureEnrollLoadTheCode : Prop :=
  ∀ s : State, s.sstate = .idle → defaultWidths s.params.cmdTab →
    exec .status s = .next { s with
      curCmd := ⟨.status, []⟩, txBuf := rawFrame s.addr 0x01 [s.params.cmdTab.status.icode], txPos := 0,
      sstate := .sent } ∧
    exec .capture s = .next { s with
      curCmd := ⟨.capture, []⟩, txBuf := rawFrame s.addr 0x01 [s.params.cmdTab.capture.icode], txPos := 0,
      sstate := .sent } ∧
    exec .enroll s = .next { s with
      curCmd := ⟨.enroll, []⟩, txBuf := rawFrame s.addr 0x01 [s.params.cmdTab.enroll.icode], txPos := 0,
      sstate := .sent }

/-- `CONVERT` and `STORE` complete (R126, R129; decisions D2, D3 and D6): code, buffer, and for `STORE` the index,
high byte first. -/
def Obligations.ConvertStoreLoadTheirParameters : Prop :=
  ∀ (s : State) (buffer : Byte) (index : Word16), s.sstate = .idle → defaultWidths s.params.cmdTab →
    exec (.convert buffer.toNat) s = .next { s with
      curCmd := ⟨.convert, [buffer.toNat]⟩
      txBuf := rawFrame s.addr 0x01 [s.params.cmdTab.convert.icode, buffer]
      txPos := 0
      sstate := .sent } ∧
    exec (.store buffer.toNat index.toNat) s = .next { s with
      curCmd := ⟨.store, [buffer.toNat, index.toNat]⟩
      txBuf := rawFrame s.addr 0x01 [s.params.cmdTab.store.icode, buffer, index.extractLsb' 8 8,
        index.extractLsb' 0 8]
      txPos := 0
      sstate := .sent }

/-- `SEARCH` and `DELETE` complete (R127, R130; decisions D2, D3 and D6): code, buffer for `SEARCH`, and two 16-bit
values, high byte first, neither compared nor combined. -/
def Obligations.SearchDeleteLoadTheirParameters : Prop :=
  ∀ (s : State) (buffer : Byte) (first second : Word16), s.sstate = .idle →
    defaultWidths s.params.cmdTab →
    exec (.search buffer.toNat first.toNat second.toNat) s = .next { s with
      curCmd := ⟨.search, [buffer.toNat, first.toNat, second.toNat]⟩
      txBuf := rawFrame s.addr 0x01 [s.params.cmdTab.search.icode, buffer, first.extractLsb' 8 8,
        first.extractLsb' 0 8, second.extractLsb' 8 8, second.extractLsb' 0 8]
      txPos := 0
      sstate := .sent } ∧
    exec (.delete first.toNat second.toNat) s = .next { s with
      curCmd := ⟨.delete, [first.toNat, second.toNat]⟩
      txBuf := rawFrame s.addr 0x01 [s.params.cmdTab.delete.icode, first.extractLsb' 8 8,
        first.extractLsb' 0 8, second.extractLsb' 8 8, second.extractLsb' 0 8]
      txPos := 0
      sstate := .sent }

/-- A command whose payload is over 65533 bytes fails before any byte is written, as an instruction and as the step of
its `Issue` (R164, the spec's own decision D29). -/
def Obligations.OversizeCommandFailsBeforeAnyByte : Prop :=
  ∀ (s : State) (c : Command), s.sstate = .idle → commandTyped s.params.cmdTab c = true →
    65533 < (cmdEncode s.params.cmdTab c).length →
    (∀ i, instrCommand i = some c →
      exec i s = .next { s with
        curCmd := c
        result := some (.failed .payloadTooLarge)
        sstate := .failed }) ∧
    (∀ es, s.events = .issue c :: es →
      step s = .next { s with
        events := es
        curCmd := c
        result := some (.failed .payloadTooLarge)
        sstate := .failed })

/-- A command outside `Idle` is not accepted (R162, the spec's own decision D26), and an ill-typed one or one without a
row never (U19), as an instruction and as the step of its `Issue`. -/
def Obligations.CommandRefusedWhenBusyOrIllTyped : Prop :=
  ∀ (s : State) (c : Command),
    (s.sstate ≠ .idle →
      (∀ i, instrCommand i = some c → exec i s = .refused .busy) ∧
      (∀ es, s.events = .issue c :: es → step s = .refused .busy)) ∧
    (s.sstate = .idle → commandTyped s.params.cmdTab c = false →
      (∀ i, instrCommand i = some c → exec i s = .refused .illTyped) ∧
      (∀ es, s.events = .issue c :: es → step s = .refused .illTyped)) ∧
    (cmdRow s.params.cmdTab c.id = none → commandTyped s.params.cmdTab c = false)

/-- The frame of the commands: `CUR_CMD`, `TXBUF`, `TXPOS`, `SSTATE` and, on failure, `RESULT` may change and
nothing else does; `TXBUF` and `TXPOS` only when the command is accepted, `RESULT` only when it fails (R163, R164). -/
def Obligations.CommandsChangeOnlyTheirRegisters : Prop :=
  ∀ (s t : State) (c : Command),
    (handleEvent (.issue c) s = .next t ∨ ∃ i, instrCommand i = some c ∧ exec i s = .next t) →
    t.params = s.params ∧ t.addr = s.addr ∧ t.rxWin = s.rxWin ∧ t.asm = s.asm ∧ t.rxAddr = s.rxAddr ∧
    t.rxPid = s.rxPid ∧ t.cancelPend = s.cancelPend ∧ t.events = s.events ∧ t.onward = s.onward ∧
    t.wire = s.wire ∧ t.taken = s.taken ∧ t.freeIdx = s.freeIdx ∧
    ((t.sstate = .sent ∧ t.result = s.result) ∨
     (t.sstate = .failed ∧ t.txBuf = s.txBuf ∧ t.txPos = s.txPos))

/-! ## Packets -/

/-- An acknowledgement as first packet with code 0x00 completes the exchange with success: the awaited command, the
bytes after the code, and the field view (R142, R172, R183, the spec's own decisions D11 and D14). -/
def Obligations.AckZeroCompletesWithSuccess : Prop :=
  ∀ (s : State) (address : Address) (bytes : List Byte), s.sstate = .awaitingFirstPacket →
    exec (.ack address (0x00 :: bytes)) s = .next { s with
      rxAddr := address
      rxPid := 0x07
      rxWin := []
      asm := []
      result := some (.success s.curCmd.id bytes (fieldView (s.params.respLayout.lookup s.curCmd.id) bytes))
      sstate := .complete }

/-- An acknowledgement as first packet with any other code completes the exchange with a device error that carries
the raw code; the bytes after it are dropped (R143, R172, R183, the spec's own decision D11). -/
def Obligations.AckNonzeroCompletesWithDeviceError : Prop :=
  ∀ (s : State) (address : Address) (conf : Byte) (bytes : List Byte),
    s.sstate = .awaitingFirstPacket → conf ≠ 0x00 →
    exec (.ack address (conf :: bytes)) s = .next { s with
      rxAddr := address
      rxPid := 0x07
      rxWin := []
      asm := []
      result := some (.deviceError conf (errorCategory s.params.errCat conf))
      sstate := .complete }

/-- An empty acknowledgement as first packet fails the exchange with `MalformedAck` (R145, R172, the spec's own
decision D12). -/
def Obligations.EmptyAckIsMalformed : Prop :=
  ∀ (s : State) (address : Address), s.sstate = .awaitingFirstPacket →
    exec (.ack address []) s = .next { s with
      rxAddr := address
      rxPid := 0x07
      rxWin := []
      asm := []
      txBuf := []
      txPos := 0
      cancelPend := false
      result := some (.failed .malformedAck)
      sstate := .failed }

/-- An end-of-data packet as first packet completes the exchange with its payload, whatever `ASM_CAP` (R173, R183,
the spec's own decision D13). -/
def Obligations.FirstEndDataCompletesWithItsPayload : Prop :=
  ∀ (s : State) (address : Address) (payload : List Byte), s.sstate = .awaitingFirstPacket →
    exec (.endData address payload) s = .next { s with
      rxAddr := address
      rxPid := 0x08
      rxWin := []
      asm := []
      result := some (.data payload)
      sstate := .complete }

/-- A data packet as first packet becomes the reassembly buffer if it fits `ASM_CAP`, and overflows it otherwise
(R174, R179, the spec's own decision D17). -/
def Obligations.FirstDataStartsReassembly : Prop :=
  ∀ (s : State) (address : Address) (payload : List Byte), s.sstate = .awaitingFirstPacket →
    ((∀ cap, s.params.asmCap = some cap → payload.length ≤ cap) →
      exec (.data address payload) s = .next { s with
        rxAddr := address
        rxPid := 0x02
        rxWin := []
        asm := payload
        sstate := .awaitingMore }) ∧
    (∀ cap, s.params.asmCap = some cap → cap < payload.length →
      exec (.data address payload) s = .next { s with
        rxAddr := address
        rxPid := 0x02
        rxWin := []
        asm := []
        txBuf := []
        txPos := 0
        cancelPend := false
        result := some (.failed .asmOverflow)
        sstate := .failed })

/-- A further data packet is appended if it fits `ASM_CAP`, and overflows it otherwise (R176, R179,
the spec's own decision D17). -/
def Obligations.FurtherDataIsAppended : Prop :=
  ∀ (s : State) (address : Address) (payload : List Byte), s.sstate = .awaitingMore →
    ((∀ cap, s.params.asmCap = some cap → s.asm.length + payload.length ≤ cap) →
      exec (.data address payload) s = .next { s with
        rxAddr := address
        rxPid := 0x02
        rxWin := []
        asm := s.asm ++ payload }) ∧
    (∀ cap, s.params.asmCap = some cap → cap < s.asm.length + payload.length →
      exec (.data address payload) s = .next { s with
        rxAddr := address
        rxPid := 0x02
        rxWin := []
        asm := []
        txBuf := []
        txPos := 0
        cancelPend := false
        result := some (.failed .asmOverflow)
        sstate := .failed })

/-- The final packet completes the exchange with the reassembled bytes and its own payload, or overflows (R177,
R179, R183, the spec's own decisions D13 and D17). -/
def Obligations.FinalEndDataCompletesTheTransfer : Prop :=
  ∀ (s : State) (address : Address) (payload : List Byte), s.sstate = .awaitingMore →
    ((∀ cap, s.params.asmCap = some cap → s.asm.length + payload.length ≤ cap) →
      exec (.endData address payload) s = .next { s with
        rxAddr := address
        rxPid := 0x08
        rxWin := []
        asm := []
        result := some (.data (s.asm ++ payload))
        sstate := .complete }) ∧
    (∀ cap, s.params.asmCap = some cap → cap < s.asm.length + payload.length →
      exec (.endData address payload) s = .next { s with
        rxAddr := address
        rxPid := 0x08
        rxWin := []
        asm := []
        txBuf := []
        txPos := 0
        cancelPend := false
        result := some (.failed .asmOverflow)
        sstate := .failed })

/-- A received `CMD` packet in either awaiting state, and an acknowledgement while assembling, fail the exchange
with `UnexpectedPacket`; `RXPID` holds the identifier (R64, R175, R178, the spec's own decisions D10 and D11). -/
def Obligations.CmdPacketAndLateAckAreUnexpected : Prop :=
  ∀ (s : State) (address : Address) (payload : List Byte),
    (s.sstate = .awaitingFirstPacket ∨ s.sstate = .awaitingMore →
      exec (.cmd address payload) s = .next { s with
        rxAddr := address
        rxPid := 0x01
        rxWin := []
        asm := []
        txBuf := []
        txPos := 0
        cancelPend := false
        result := some (.failed .unexpectedPacket)
        sstate := .failed }) ∧
    (s.sstate = .awaitingMore →
      exec (.ack address payload) s = .next { s with
        rxAddr := address
        rxPid := 0x07
        rxWin := []
        asm := []
        txBuf := []
        txPos := 0
        cancelPend := false
        result := some (.failed .unexpectedPacket)
        sstate := .failed })

/-- In `Idle`, `Sent`, `Complete` and `Failed` a received byte is dropped and no register changes, so the four
packet instructions change nothing there (R185, the spec's own decision D20). -/
def Obligations.BytesAreDrainedOutsideTheAwaitingStates : Prop :=
  ∀ (s : State) (address : Address) (payload : List Byte),
    s.sstate ≠ .awaitingFirstPacket → s.sstate ≠ .awaitingMore →
    exec (.cmd address payload) s = .next s ∧ exec (.data address payload) s = .next s ∧
    exec (.ack address payload) s = .next s ∧ exec (.endData address payload) s = .next s ∧
    (∀ (b : Byte) (es : List Event), s.events = .rxByte b :: es → step s = .next { s with events := es })

/-- The frame of the four packet instructions: `ADDR`, `CUR_CMD` and everything outside the block never change, and
`TXBUF`, `TXPOS` and `CANCEL_PEND` only when the exchange fails (R171 to R179, R208). -/
def Obligations.PacketsChangeOnlyTheirRegisters : Prop :=
  ∀ (s t : State) (i : Instr), instrCommand i = none → exec i s = .next t →
    t.params = s.params ∧ t.addr = s.addr ∧ t.curCmd = s.curCmd ∧ t.events = s.events ∧
    t.onward = s.onward ∧ t.wire = s.wire ∧ t.taken = s.taken ∧ t.freeIdx = s.freeIdx ∧
    (t.sstate ≠ .failed → t.txBuf = s.txBuf ∧ t.txPos = s.txPos ∧ t.cancelPend = s.cancelPend) ∧
    (t.sstate = .awaitingMore → t.result = s.result)

/-- The received address is not compared with `ADDR` or with anything: changing it changes `RXADDR` and nothing
else (R186, R239, the spec's own decision D16). -/
def Obligations.ReceivedAddressReachesOnlyRxAddr : Prop :=
  ∀ (s t : State) (one other : Address) (pid : Byte) (payload : List Byte) (i j : Instr),
    packetInstr one pid payload = some i → packetInstr other pid payload = some j →
    exec i s = .next t →
    exec j s = .next (if s.sstate = .awaitingFirstPacket ∨ s.sstate = .awaitingMore
      then { t with rxAddr := other } else t)

/-- R145, R151: the response decoder fails on an empty acknowledgement and on nothing else. R143, R151: every code from
0x01 to 0xFF is a device error that carries it, with the category its entry of `ERRCAT` gives or `Unknown`, whatever
follows (the spec's own decisions D12 and D15). -/
def Obligations.ResponseDecoderFailsOnlyOnEmptyAckAndKeepsRawCodes : Prop :=
  (∀ (p : Config.Params) (c : CmdId) (kind : Completion) (payload : List Byte),
    (∀ e, respDecode p c kind payload ≠ .error e) ↔ ¬ (kind = .ack ∧ payload = [])) ∧
  (∀ (p : Config.Params) (c : CmdId) (conf : Byte) (bytes : List Byte), conf ≠ 0x00 →
    (∀ category, p.errCat.lookup conf = some category →
      respDecode p c .ack (conf :: bytes) = .ok (.deviceError conf category)) ∧
    ((∀ category, (conf, category) ∉ p.errCat) →
      respDecode p c .ack (conf :: bytes) = .ok (.deviceError conf .unknown)))

/-- R147, the spec's own decision D14: where the lengths agree the fields are named in order, each value is within its
width, and the values spell the data back big-endian, so each is the number its bytes spell; where they do not, or
there is no layout, there is no view. -/
def Obligations.FieldsCutTheDataBigEndian : Prop :=
  ∀ (layout : List Config.FieldSpec) (bytes : List Byte),
    (bytes.length = (layout.map Config.FieldSpec.width).sum →
      ∃ fields, fieldView (some layout) bytes = some fields ∧
        fields.map Prod.fst = layout.map Config.FieldSpec.name ∧
        argsFit (layout.map Config.FieldSpec.width) (fields.map Prod.snd) = true ∧
        spellArgs (layout.map Config.FieldSpec.width) (fields.map Prod.snd) = bytes) ∧
    (bytes.length ≠ (layout.map Config.FieldSpec.width).sum → fieldView (some layout) bytes = none) ∧
    fieldView none bytes = none

/-! ## Steps -/

/-- A step runs the decoded instruction: the `Issue` to come runs its command, and in an awaiting state the byte that
makes the window decode to an instruction runs that instruction; the step takes the event off the schedule and adds
nothing else (R163, R168, R171). With no event listed, a step waits where the environment does nothing more, and
otherwise is the step of the environment's next event, taken from what goes on (R161, R188; log 1). -/
def Obligations.StepRunsTheDecodedInstruction : Prop :=
  ∀ s : State,
    (∀ es c i, s.events = .issue c :: es → instrCommand i = some c →
      step s = exec i { s with events := es }) ∧
    (∀ es b i more, s.events = .rxByte b :: es →
      (s.sstate = .awaitingFirstPacket ∨ s.sstate = .awaitingMore) →
      decode s.params.cmdTab .wire (s.rxWin ++ [b]) = .ok (i, more) →
      step s = exec i { s with events := es }) ∧
    (s.events = [] → s.onward = .quiet ∨ s.onward = .again [] → step s = .next s) ∧
    (∀ e es, s.events = [] → s.onward = .again (e :: es) →
      step s = step { s with events := [e], onward := .again (es ++ [e]) }) ∧
    (∀ n, s.events = [] → s.onward = .free n →
      step s = step { s with events := [Config.freeEvent n], onward := .free (n + 1) })

/-- R169, R170: a byte that leaves the window incomplete is kept and nothing else changes; one that makes a fatal
verdict final raises the cause of that verdict in the same step. -/
def Obligations.IncompleteByteIsKeptAndFatalVerdictRaises : Prop :=
  ∀ (s : State) (b : Byte) (es : List Event), s.events = .rxByte b :: es →
    (s.sstate = .awaitingFirstPacket ∨ s.sstate = .awaitingMore) →
    (decodeFrame (s.rxWin ++ [b]) = .incomplete →
      step s = .next { s with events := es, rxWin := s.rxWin ++ [b] }) ∧
    (decodeFrame (s.rxWin ++ [b]) = .badMagic → step s = .next (raise .badMagic { s with events := es })) ∧
    (decodeFrame (s.rxWin ++ [b]) = .checksumError →
      step s = .next (raise .checksumError { s with events := es })) ∧
    (decodeFrame (s.rxWin ++ [b]) = .badLength → step s = .next (raise .badLength { s with events := es }))

/-- R208: the failure entry empties the buffers and the position, clears the pending cancel and records the cause;
everything else keeps its value. -/
def Obligations.FailureEntryDiscardsTheExchange : Prop :=
  ∀ (cause : Cause) (s : State),
    raise cause s = { s with
      rxWin := []
      asm := []
      txBuf := []
      txPos := 0
      cancelPend := false
      result := some (.failed cause)
      sstate := .failed }

/-- A packet whose identifier is none of 1, 2, 7 and 8 fails the exchange with `UnexpectedPacket`, and `RXPID` holds
the identifier (R64, R175, R178, the spec's own decision D10; log 13). -/
def Obligations.IdentifierWithoutRoleIsUnexpected : Prop :=
  ∀ (s : State) (b : Byte) (es : List Event) (address : Address) (pid : Byte) (payload : List Byte) (n : Nat),
    s.events = .rxByte b :: es → (s.sstate = .awaitingFirstPacket ∨ s.sstate = .awaitingMore) →
    decodeFrame (s.rxWin ++ [b]) = .ok address pid payload n →
    pid ≠ 0x01 → pid ≠ 0x02 → pid ≠ 0x07 → pid ≠ 0x08 →
    step s = .next { s with
      events := es
      rxAddr := address
      rxPid := pid
      rxWin := []
      asm := []
      txBuf := []
      txPos := 0
      cancelPend := false
      result := some (.failed .unexpectedPacket)
      sstate := .failed }

/-- R165: the byte at `TXPOS` is handed to the transport, and before the last one only the position moves. -/
def Obligations.TxByteEmitsTheByteAtThePosition : Prop :=
  ∀ (s : State) (b : Byte) (es : List Event), s.events = .txByte :: es → s.sstate = .sent →
    s.txBuf[s.txPos]? = some b →
    (s.txPos + 1 < s.txBuf.length →
      step s = .next { s with events := es, wire := s.wire ++ [b], txPos := s.txPos + 1 }) ∧
    (s.txPos + 1 = s.txBuf.length → ∃ t, step s = .next t ∧ t.wire = s.wire ++ [b])

/-- The bytes of a frame leave in order, each once, and then the reads begin, or the cancel that was held takes
effect: the wire carries the whole frame either way (R165, R166, R182, the spec's own decisions D2 and D19). -/
def Obligations.TheWholeFrameIsWritten : Prop :=
  ∀ (s : State) (es : List Event), s.sstate = .sent → s.txPos < s.txBuf.length →
    s.events = List.replicate (s.txBuf.length - s.txPos) Event.txByte ++ es →
    Host.Core.run Sys2Proof.core (s.txBuf.length - s.txPos) s = .next
      (if s.cancelPend then
        raise .cancelled { s with events := es, wire := s.wire ++ s.txBuf.drop s.txPos }
      else { s with
        events := es
        wire := s.wire ++ s.txBuf.drop s.txPos
        txBuf := []
        txPos := 0
        rxWin := []
        asm := []
        sstate := .awaitingFirstPacket })

/-- R181: a read error in an awaiting state raises `TransportError`. -/
def Obligations.ReadErrorRaisesTransportError : Prop :=
  ∀ (s : State) (es : List Event), s.events = .rxError :: es →
    (s.sstate = .awaitingFirstPacket ∨ s.sstate = .awaitingMore) →
    step s = .next (raise .transportError { s with events := es })

/-- A write error in `Sent` raises `TransportError`, a timeout in an awaiting state raises `Timeout`, a cancel in an
awaiting state raises `Cancelled`, and in `Sent` a cancel is held (R167, R180, R182, the spec's own decisions D18,
D19 and D27). -/
def Obligations.WriteErrorTimeoutAndCancel : Prop :=
  ∀ (s : State) (e : Event) (es : List Event), s.events = e :: es →
    (e = .txError → s.sstate = .sent → step s = .next (raise .transportError { s with events := es })) ∧
    (e = .timeout → (s.sstate = .awaitingFirstPacket ∨ s.sstate = .awaitingMore) →
      step s = .next (raise .timeout { s with events := es })) ∧
    (e = .cancel → s.params.hasCancel = true →
      (s.sstate = .awaitingFirstPacket ∨ s.sstate = .awaitingMore) →
      step s = .next (raise .cancelled { s with events := es })) ∧
    (e = .cancel → s.params.hasCancel = true → s.sstate = .sent →
      step s = .next { s with events := es, cancelPend := true })

/-- R210: the host takes the outcome, and the block is in the clean `Idle` state; from every state with the
invariant. -/
def Obligations.TakeResultReturnsToCleanIdle : Prop :=
  ∀ (s : State) (es : List Event), Inv s → s.events = .takeResult :: es →
    (s.sstate = .complete ∨ s.sstate = .failed) →
    ∃ (r : Result) (t : State), s.result = some r ∧ step s = .next t ∧ CleanIdle t ∧
      t = { s with events := es, taken := s.taken ++ [r], result := none, sstate := .idle }

/-- `Reset` in any state gives the clean `Idle` state, keeps `ADDR` and delivers no outcome; what `CUR_CMD`, `RXADDR`
and `RXPID` hold after it is not fixed (R230, R32, the spec's own decision D21; log 5). -/
def Obligations.ResetGivesCleanIdleFromAnyState : Prop :=
  ∀ (s : State) (es : List Event), s.events = .reset :: es →
    ∃ (t : State) (c : Command) (a : Address) (p : Byte) (k : Nat), step s = .next t ∧ CleanIdle t ∧
      t = { s with
        events := es, sstate := .idle, curCmd := c, txBuf := [], txPos := 0, rxWin := [], asm := [],
        rxAddr := a, rxPid := p, result := none, cancelPend := false, freeIdx := k }

/-- The host writes `ADDR` in `Idle`, and no other step writes it; no step writes the parameters (R11, R22, R215; the
event is log 10's). -/
def Obligations.OnlyConfigureWritesTheAddress : Prop :=
  (∀ (s : State) (a : Address) (es : List Event), s.events = .configure a :: es → s.sstate = .idle →
    step s = .next { s with events := es, addr := a }) ∧
  (∀ s t : State, step s = .next t → t.params = s.params ∧
    (t.addr = s.addr ∨ ∃ a, dueEvent s = some (.configure a) ∧ s.sstate = .idle ∧ t.addr = a))

/-! ## The whole machine -/

/-- R24: every step keeps the invariant, from every state that has it. -/
def Obligations.EveryStepKeepsTheInvariant : Prop :=
  ∀ s t : State, Inv s → step s = .next t → Inv t

/-- R24, R32: the state after reset has the invariant. -/
def Obligations.ResetHasTheInvariant : Prop :=
  Inv State.reset

/-- From a state with the invariant no step faults, and a step is refused exactly when the event to come is not
enabled in that state (R30, R160; the refusals are log 2's). -/
def Obligations.StepStopsExactlyOnEventsNotEnabled : Prop :=
  ∀ s : State, Inv s →
    (∀ r, step s ≠ .fault r) ∧
    ((∃ r, step s = .refused r) ↔ ∃ e, dueEvent s = some e ∧ eventEnabled e s = false)

/-- R208, R164: from a state with the invariant, every step that enters `Failed` records a cause and leaves every
buffer of the exchange empty and no cancel pending; nothing is written to the transport by the entry itself, at most
the frame's last byte in the same step. -/
def Obligations.EnteringFailedDiscardsEverything : Prop :=
  ∀ s t : State, Inv s → step s = .next t → s.sstate ≠ .failed → t.sstate = .failed →
    (∃ cause, t.result = some (.failed cause)) ∧ t.rxWin = [] ∧ t.asm = [] ∧ t.txBuf = [] ∧ t.txPos = 0 ∧
    t.cancelPend = false ∧
    (t.wire = s.wire ∨
      ∃ b, dueEvent s = some .txByte ∧ s.cancelPend = true ∧ s.txPos + 1 = s.txBuf.length ∧
        s.txBuf[s.txPos]? = some b ∧ t.wire = s.wire ++ [b])

/-- R211: in `Complete` and `Failed` only `TakeResult` and `Reset` change anything: any other step takes its event off
the schedule and leaves the block, what was written and the rest of the schedule as they were, so the first cause is
the one reported and nothing is sent again. -/
def Obligations.OutcomeStaysUntilTakenOrReset : Prop :=
  ∀ s t : State, step s = .next t → (s.sstate = .complete ∨ s.sstate = .failed) →
    dueEvent s = some .takeResult ∨ dueEvent s = some .reset ∨
    t = { s with
      events := s.events.tail
      onward := if s.events = [] then s.onward.next else s.onward }

/-- R187: `AwaitingMore` is left only by an end-of-data packet that completes, by a failure, or by `Reset` (which R230
enables everywhere). -/
def Obligations.AwaitingMoreIsLeftOnlyByEndFailureOrReset : Prop :=
  ∀ s t : State, step s = .next t → s.sstate = .awaitingMore → t.sstate ≠ .awaitingMore →
    (t.sstate = .complete ∧ ∃ b address payload n, dueEvent s = some (.rxByte b) ∧
      decodeFrame (s.rxWin ++ [b]) = .ok address 0x08 payload n ∧ t.result = some (.data (s.asm ++ payload))) ∨
    (t.sstate = .failed ∧ ∃ cause, t.result = some (.failed cause)) ∨
    (t.sstate = .idle ∧ dueEvent s = some .reset)

/-- R13: `CUR_CMD` is written by the `Issue` that is accepted or rejected before any I/O, and otherwise only by
`Reset`, so an exchange in flight keeps its command (90_conflicts.md C13). -/
def Obligations.CommandRegisterIsStableDuringAnExchange : Prop :=
  ∀ s t : State, step s = .next t →
    t.curCmd = s.curCmd ∨
    (∃ c, dueEvent s = some (.issue c) ∧ s.sstate = .idle ∧ t.curCmd = c) ∨
    dueEvent s = some .reset

/-- R192, R50: bytes reach the transport only by `TxByte` in `Sent`, one a step, at the end of what was written. -/
def Obligations.OnlyTxByteWritesTheWire : Prop :=
  ∀ s t : State, step s = .next t →
    t.wire = s.wire ∨
    ∃ b, dueEvent s = some .txByte ∧ s.sstate = .sent ∧ s.txBuf[s.txPos]? = some b ∧ t.wire = s.wire ++ [b]

/-- R200, R184: an outcome reaches the host only by `TakeResult`, one a step, and it is the value of `RESULT`. -/
def Obligations.OutcomesReachTheHostOnlyByTakeResult : Prop :=
  ∀ s t : State, Inv s → step s = .next t →
    t.taken = s.taken ∨
    ∃ r, dueEvent s = some .takeResult ∧ s.result = some r ∧ t.taken = s.taken ++ [r] ∧ t.sstate = .idle

/-- R188: the executions that never end are kept. (a), (c): where the environment does nothing more, every run stays
where it is. (b): a device that sends one well-formed data packet over and over keeps the session in `AwaitingMore`
for ever, for every payload where `ASM_CAP` is infinite and for the empty one otherwise. -/
def Obligations.ExecutionsThatNeverEndAreKept : Prop :=
  (∀ (s : State) (n : Nat), s.events = [] → s.onward = .quiet → Host.Core.run Sys2Proof.core n s = .next s) ∧
  (∀ (s : State) (address : Address) (payload : List Byte) (n : Nat),
    s.sstate = .awaitingMore → s.rxWin = [] → s.events = [] → payload.length ≤ 65533 →
    s.onward = .again ((rawFrame address 0x02 payload).map Event.rxByte) →
    (s.params.asmCap = none ∨ payload = [] ∧ ∀ cap, s.params.asmCap = some cap → s.asm.length ≤ cap) →
    ∃ t, Host.Core.run Sys2Proof.core n s = .next t ∧ t.sstate = .awaitingMore)

/-! ## Multi-packet payloads -/

/-- `Split` tags every packet but the last as data and the last as end-of-data, fills every one but the last with
exactly `chunk` bytes, and cuts nothing away (R190, the spec's own decision D23). -/
def Obligations.SplitTagsAndKeepsEveryByte : Prop :=
  ∀ (bytes : List Byte) (chunk : Config.Chunk),
    ((splitPayload bytes chunk).map Prod.snd).flatten = bytes ∧
    ∃ (front : List (List Byte)) (final : List Byte),
      splitPayload bytes chunk = front.map (fun p => ((0x02 : Byte), p)) ++ [((0x08 : Byte), final)] ∧
      (∀ p ∈ front, p.length = chunk.val) ∧ final.length ≤ chunk.val ∧ (bytes ≠ [] → final ≠ [])

/-- R191: the frames of a split payload, delivered byte by byte to a session that awaits its first packet, complete
the exchange with the payload; every byte is taken and nothing else of the schedule is. -/
def Obligations.ReassemblyInvertsSplitting : Prop :=
  ∀ (s : State) (address : Address) (bytes : List Byte) (chunk : Config.Chunk) (es : List Event),
    s.sstate = .awaitingFirstPacket → s.rxWin = [] →
    (∀ cap, s.params.asmCap = some cap → bytes.length ≤ cap) →
    s.events = (splitFrames address bytes chunk).flatten.map Event.rxByte ++ es →
    Host.Core.run Sys2Proof.core (splitFrames address bytes chunk).flatten.length s = .next { s with
      events := es
      rxAddr := address
      rxPid := 0x08
      rxWin := []
      asm := []
      result := some (.data bytes)
      sstate := .complete }
end

