-- ==== Sys2Proof/Laws/Bytes.lean ====
section
/-! SUPPORT. Byte order: `be` and `BE` are inverse, and a command's arguments read back as spelled. -/

namespace Sys2Proof

@[simp] theorem length_spellBE (v w : Nat) : (spellBE v w).length = w := by simp [spellBE]

@[simp] theorem spellBE_zero (v : Nat) : spellBE v 0 = [] := rfl

/-- The last byte of a spelling is the value's low byte. -/
theorem spellBE_succ (v w : Nat) : spellBE v (w + 1) = spellBE (v / 256) w ++ [BitVec.ofNat 8 v] := by
  simp only [spellBE, List.range_succ, List.map_append, List.map_cons, List.map_nil]
  congr 1
  · apply List.map_congr_left
    intro i hi
    have hi : i < w := List.mem_range.mp hi
    rw [Nat.div_div_eq_div_mul, ← Nat.pow_succ', show w + 1 - 1 - i = w - 1 - i + 1 by omega]
  · simp

theorem readBE_foldl (s : List Byte) (a : Nat) :
    s.foldl (fun acc b => acc * 256 + b.toNat) a = a * 256 ^ s.length + readBE s := by
  induction s generalizing a with
  | nil => simp [readBE]
  | cons b s ih =>
    simp only [List.foldl_cons, List.length_cons, readBE]
    rw [ih, ih (0 * 256 + b.toNat), Nat.pow_succ']
    ring

@[simp] theorem readBE_nil : readBE [] = 0 := rfl

theorem readBE_append (s t : List Byte) : readBE (s ++ t) = readBE s * 256 ^ t.length + readBE t := by
  rw [readBE, List.foldl_append, readBE_foldl]
  rfl

theorem readBE_cons (b : Byte) (s : List Byte) :
    readBE (b :: s) = b.toNat * 256 ^ s.length + readBE s := by
  rw [← List.singleton_append, readBE_append]
  simp [readBE]

theorem readBE_lt (s : List Byte) : readBE s < 256 ^ s.length := by
  induction s with
  | nil => simp
  | cons b s ih =>
    rw [readBE_cons, List.length_cons, Nat.pow_succ']
    have hb : b.toNat + 1 ≤ 256 := b.isLt
    calc b.toNat * 256 ^ s.length + readBE s < b.toNat * 256 ^ s.length + 256 ^ s.length := by omega
      _ = (b.toNat + 1) * 256 ^ s.length := by ring
      _ ≤ 256 * 256 ^ s.length := Nat.mul_le_mul_right _ hb

/-- Reading a spelling gives the value modulo the field's range. -/
theorem readBE_spellBE (v w : Nat) : readBE (spellBE v w) = v % 256 ^ w := by
  induction w generalizing v with
  | zero => simp [Nat.mod_one]
  | succ w ih =>
    rw [spellBE_succ, readBE_append, ih]
    simp only [List.length_singleton, readBE_cons, List.length_nil, readBE_nil, BitVec.toNat_ofNat]
    have hmul : v % 256 ^ (w + 1) = v % 256 + 256 * (v / 256 % 256 ^ w) := by
      rw [Nat.pow_succ', Nat.mod_mul]
    omega

/-- Spelling what was read gives the bytes back. -/
theorem spellBE_readBE (s : List Byte) : spellBE (readBE s) s.length = s := by
  induction s using List.reverseRecOn with
  | nil => rfl
  | append_singleton s b ih =>
    have hb : b.toNat < 256 := b.isLt
    rw [List.length_append, List.length_singleton, spellBE_succ, readBE_append]
    simp only [List.length_singleton, readBE_cons, List.length_nil, readBE_nil]
    congr 1
    · rw [show (readBE s * 256 ^ 1 + (b.toNat * 256 ^ 0 + 0)) / 256 = readBE s by omega, ih]
    · congr 1
      apply BitVec.eq_of_toNat_eq
      simp only [BitVec.toNat_ofNat]
      omega

@[simp] theorem length_word16Bytes (v : Word16) : (word16Bytes v).length = 2 := rfl

@[simp] theorem length_addressBytes (a : Address) : (addressBytes a).length = 4 := rfl

/-- The two bytes of a 16-bit field read back. -/
theorem word16Bytes_value (v : Word16) :
    (v.extractLsb' 8 8).toNat * 256 + (v.extractLsb' 0 8).toNat = v.toNat := by
  have := v.isLt
  simp only [BitVec.extractLsb'_toNat, Nat.shiftRight_eq_div_pow]
  omega

/-- The bytes of an address carry it unchanged (R42). -/
theorem bytesAddress_addressBytes (a : Address) : bytesAddress (addressBytes a) = a := by
  apply BitVec.eq_of_toNat_eq
  have := a.isLt
  simp only [bytesAddress, addressBytes, readBE_cons, readBE_nil, List.length_cons, List.length_nil,
    BitVec.toNat_ofNat, BitVec.extractLsb'_toNat, Nat.shiftRight_eq_div_pow]
  omega

/-- The number four bytes spell. -/
theorem bytesAddress_toNat (a b c d : Byte) :
    (bytesAddress [a, b, c, d]).toNat =
      a.toNat * 16777216 + b.toNat * 65536 + c.toNat * 256 + d.toNat := by
  have ha := a.isLt; have hb := b.isLt; have hc := c.isLt; have hd := d.isLt
  simp only [bytesAddress, readBE, List.foldl_cons, List.foldl_nil, BitVec.toNat_ofNat]
  omega

/-- Four bytes are the bytes of the address they carry (R42). -/
theorem addressBytes_bytesAddress (a b c d : Byte) :
    addressBytes (bytesAddress [a, b, c, d]) = [a, b, c, d] := by
  have ha := a.isLt; have hb := b.isLt; have hc := c.isLt; have hd := d.isLt
  have hv := bytesAddress_toNat a b c d
  generalize bytesAddress [a, b, c, d] = v at hv
  simp only [addressBytes, List.cons.injEq, and_true, ← BitVec.toNat_inj, BitVec.extractLsb'_toNat,
    Nat.shiftRight_eq_div_pow]
  refine ⟨?_, ?_, ?_, ?_⟩ <;> omega

theorem argsFit_length {ws vs : List Nat} (h : argsFit ws vs = true) : vs.length = ws.length := by
  induction ws generalizing vs with
  | nil => cases vs <;> simp_all [argsFit]
  | cons w ws ih => cases vs <;> simp_all [argsFit]

/-- Arguments that fit their widths read back as spelled, with the rest of the bytes (R68). -/
theorem readArgs_spellArgs {ws vs : List Nat} (h : argsFit ws vs = true) (rest : List Byte) :
    readArgs ws (spellArgs ws vs ++ rest) = some (vs, rest) := by
  induction ws generalizing vs with
  | nil => cases vs <;> simp_all [argsFit, readArgs, spellArgs]
  | cons w ws ih =>
    cases vs with
    | nil => simp [argsFit] at h
    | cons v vs =>
      simp only [argsFit, Bool.and_eq_true, decide_eq_true_eq] at h
      have hlen : ¬ (spellArgs (w :: ws) (v :: vs) ++ rest).length < w := by simp [spellArgs]
      have hdrop : (spellArgs (w :: ws) (v :: vs) ++ rest).drop w = spellArgs ws vs ++ rest := by
        rw [spellArgs, List.append_assoc, List.drop_left' (length_spellBE v w)]
      have htake : (spellArgs (w :: ws) (v :: vs) ++ rest).take w = spellBE v w := by
        rw [spellArgs, List.append_assoc, List.take_left' (length_spellBE v w)]
      rw [readArgs, if_neg hlen, hdrop, htake, ih h.2, readBE_spellBE, Nat.mod_eq_of_lt h.1]
      rfl

/-- What `readArgs` reads fits its widths and spells back (R68). -/
theorem readArgs_sound {ws : List Nat} {bs : List Byte} {vs : List Nat} {rest : List Byte}
    (h : readArgs ws bs = some (vs, rest)) : argsFit ws vs = true ∧ bs = spellArgs ws vs ++ rest := by
  induction ws generalizing bs vs with
  | nil =>
    simp only [readArgs, Option.some.injEq, Prod.mk.injEq] at h
    obtain ⟨rfl, rfl⟩ := h
    simp [argsFit, spellArgs]
  | cons w ws ih =>
    by_cases hw : bs.length < w
    · simp [readArgs, hw] at h
    · simp only [readArgs, if_neg hw, Option.map_eq_some_iff, Prod.exists, Prod.mk.injEq] at h
      obtain ⟨vs', r, hr, rfl, rfl⟩ := h
      obtain ⟨hfit, heq⟩ := ih hr
      have hlen : (bs.take w).length = w := by simp; omega
      have hval := readBE_lt (bs.take w)
      have hspell := spellBE_readBE (bs.take w)
      rw [hlen] at hval hspell
      refine ⟨by simp [argsFit, hval, hfit], ?_⟩
      rw [spellArgs, hspell, List.append_assoc, ← heq, List.take_append_drop]

theorem length_spellArgs {ws vs : List Nat} (h : argsFit ws vs = true) :
    (spellArgs ws vs).length = ws.sum := by
  induction ws generalizing vs with
  | nil => cases vs <;> simp_all [spellArgs]
  | cons w ws ih =>
    cases vs with
    | nil => simp [argsFit] at h
    | cons v vs =>
      simp only [argsFit, Bool.and_eq_true] at h
      simp [spellArgs, ih h.2]

/-- Arguments fit their widths exactly when they are as many and each is in its range (R120). -/
theorem argsFit_iff {ws vs : List Nat} : argsFit ws vs = true ↔ List.Forall₂ (fun w v => v < 256 ^ w) ws vs := by
  induction ws generalizing vs with
  | nil => cases vs <;> simp [argsFit]
  | cons w ws ih => cases vs <;> simp [argsFit, ih]

/-- A command is typed by the row it has. -/
theorem commandTyped_row {tab : Config.CmdTab} {c : Command} {row : Config.CmdRow}
    (h : cmdRow tab c.id = some row) : commandTyped tab c = argsFit (rowWidths row) c.args := by
  simp [commandTyped, h]

/-- A command is encoded by the row it has. -/
theorem cmdEncode_row {tab : Config.CmdTab} {c : Command} {row : Config.CmdRow}
    (h : cmdRow tab c.id = some row) : cmdEncode tab c = encodeRow row c.args := by
  simp [cmdEncode, h]

/-- A typed command has a row that its arguments fit (R120, U19). -/
theorem exists_row {tab : Config.CmdTab} {c : Command} (h : commandTyped tab c = true) :
    ∃ row, cmdRow tab c.id = some row ∧ argsFit (rowWidths row) c.args = true := by
  unfold commandTyped at h
  split at h
  · exact ⟨_, ‹_›, h⟩
  · cases h

/-- The payload of a typed command is one byte and its parameters. -/
theorem length_encodeRow {row : Config.CmdRow} {args : List Nat} (h : argsFit (rowWidths row) args = true) :
    (encodeRow row args).length = 1 + (rowWidths row).sum := by
  rw [encodeRow, List.length_cons, length_spellArgs h]; omega

/-- The listed rows are those the identities name (R121). -/
theorem mem_cmdRows {tab : Config.CmdTab} {c : CmdId} {row : Config.CmdRow} :
    (c, row) ∈ cmdRows tab ↔ cmdRow tab c = some row := by
  cases c with
  | other n =>
    simp only [cmdRows, cmdRow, List.mem_append, List.mem_map, List.mem_cons, Prod.mk.injEq, reduceCtorEq,
      false_and, List.not_mem_nil, or_false, false_or, Prod.exists, CmdId.other.injEq,
      List.mem_zipIdx_iff_getElem?]
    constructor
    · rintro ⟨r, k, h, rfl, rfl⟩; exact h
    · exact fun h => ⟨row, n, h, rfl, rfl⟩
  | _ => simp [cmdRows, cmdRow, eq_comm]

/-- The instruction of a command issues it, and no other does. -/
theorem commandInstr_iff {c : Command} {i : Instr} : commandInstr c = some i ↔ instrCommand i = some c := by
  constructor
  · intro h
    obtain ⟨id, args⟩ := c
    unfold commandInstr at h
    split at h <;> cases h <;> simp_all [instrCommand]
  · intro h
    cases i <;> simp only [instrCommand, reduceCtorEq, Option.some.injEq] at h <;> subst h <;> rfl

end Sys2Proof
end

