-- ==== Sys2Proof/Laws/Codec.lean ====
section
/-! SUPPORT. The codec: the shape of a frame, and `Decode` said once by its outcomes. -/

namespace Sys2Proof

theorem length_rawFrame (a : Address) (pid : Byte) (p : List Byte) :
    (rawFrame a pid p).length = p.length + 11 := by
  simp [rawFrame, addressBytes, word16Bytes]

/-- The frame as its eleven fixed bytes around the payload (R60). -/
theorem rawFrame_cons (a : Address) (pid : Byte) (p : List Byte) :
    rawFrame a pid p =
      Config.magic0 :: Config.magic1 :: a.extractLsb' 24 8 :: a.extractLsb' 16 8 :: a.extractLsb' 8 8 ::
      a.extractLsb' 0 8 :: pid :: (BitVec.ofNat 16 (p.length + 2)).extractLsb' 8 8 ::
      (BitVec.ofNat 16 (p.length + 2)).extractLsb' 0 8 ::
      (p ++ word16Bytes (checksum pid (BitVec.ofNat 16 (p.length + 2)) p)) := by
  simp [rawFrame, addressBytes, word16Bytes]

/-- Every window of nine bytes or more is a header and a body. -/
theorem exists_header {w : List Byte} (h : 9 ≤ w.length) :
    ∃ m0 m1 a0 a1 a2 a3 pid l1 l0 body,
      w = m0 :: m1 :: a0 :: a1 :: a2 :: a3 :: pid :: l1 :: l0 :: body := by
  match w, h with
  | m0 :: m1 :: a0 :: a1 :: a2 :: a3 :: pid :: l1 :: l0 :: body, _ =>
    exact ⟨m0, m1, a0, a1, a2, a3, pid, l1, l0, body, rfl⟩

/-- `Decode` on a window with the right magic and a whole header whose length field is `L` (R105 to R109). -/
theorem decodeFrame_header {a0 a1 a2 a3 pid l1 l0 : Byte} {body : List Byte} {L : Nat}
    (hL : l1.toNat * 256 + l0.toNat = L) :
    decodeFrame (Config.magic0 :: Config.magic1 :: a0 :: a1 :: a2 :: a3 :: pid :: l1 :: l0 :: body) =
      if L < 2 then .badLength
      else if body.length < L then .incomplete
      else if (byteAt body (L - 2)).toNat * 256 + (byteAt body (L - 1)).toNat
          ≠ (checksum pid (BitVec.ofNat 16 L) (body.take (L - 2))).toNat then .checksumError
      else .ok (bytesAddress [a0, a1, a2, a3]) pid (body.take (L - 2)) (9 + L) := by
  have hlf : lengthField (Config.magic0 :: Config.magic1 :: a0 :: a1 :: a2 :: a3 :: pid :: l1 :: l0 :: body) = L :=
    hL
  by_cases h2 : L < 2
  · simp [decodeFrame, hlf, byteAt, Config.hdrLen, h2]
  · obtain ⟨k, rfl⟩ : ∃ k, L = k + 2 := ⟨L - 2, by omega⟩
    have e1 : 7 + (k + 2) = k + 9 := by omega
    have e2 : 8 + (k + 2) = k + 10 := by omega
    have e3 : k + 2 - 1 = k + 1 := by omega
    have e4 : k + 2 - 2 = k := by omega
    have e5 : body.length + 9 < 9 + (k + 2) ↔ body.length < k + 2 := by omega
    simp [decodeFrame, hlf, byteAt, slice, Config.hdrLen, e1, e2, e3, e4, e5]

/-- `Decode` on a window shorter than a header: incomplete where its magic bytes are right (R104, R105). -/
theorem decodeFrame_short {w : List Byte} (h : w.length < 9) :
    decodeFrame w = .incomplete ∨ decodeFrame w = .badMagic := by
  unfold decodeFrame
  split_ifs <;> simp_all [Config.hdrLen]

/-- A verdict that is neither `BadMagic` nor given to a short window comes from a right magic. -/
theorem magic_of_decodeFrame {m0 m1 : Byte} {w : List Byte} (h : decodeFrame (m0 :: m1 :: w) ≠ .badMagic) :
    m0 = Config.magic0 ∧ m1 = Config.magic1 := by
  by_contra hne
  apply h
  unfold decodeFrame
  by_cases h0 : m0 = Config.magic0
  · have h1 : m1 ≠ Config.magic1 := fun h1 => hne ⟨h0, h1⟩
    simp [byteAt, h0, h1]
  · simp [byteAt, h0]

/-- The checksum of the fields, spelled in two bytes, reads back as itself. -/
theorem stored_checksum (c : Word16) (p : List Byte) (rest : List Byte) :
    (byteAt (p ++ word16Bytes c ++ rest) p.length).toNat * 256
      + (byteAt (p ++ word16Bytes c ++ rest) (p.length + 1)).toNat = c.toNat := by
  rw [← word16Bytes_value c]
  simp [byteAt, word16Bytes, List.getD_eq_getElem?_getD]

/-- The length field of a frame holds the payload length plus two (R62). -/
theorem frame_length_value {p : List Byte} (h : p.length ≤ Config.maxPayload) :
    ((BitVec.ofNat 16 (p.length + 2)).extractLsb' 8 8).toNat * 256
      + ((BitVec.ofNat 16 (p.length + 2)).extractLsb' 0 8).toNat = p.length + 2 := by
  have h' : p.length ≤ 65533 := h
  rw [word16Bytes_value, BitVec.toNat_ofNat]
  omega

end Sys2Proof
end

