-- ==== Sys2Proof/Laws/State.lean ====
section
/-! SUPPORT. One lemma per field and update of the state: what each shared update leaves in each register. -/

namespace Sys2Proof.Machine

@[simp] theorem raise_params (c : Cause) (s : State) : (raise c s).params = s.params := rfl
@[simp] theorem raise_addr (c : Cause) (s : State) : (raise c s).addr = s.addr := rfl
@[simp] theorem raise_sstate (c : Cause) (s : State) : (raise c s).sstate = .failed := rfl
@[simp] theorem raise_curCmd (c : Cause) (s : State) : (raise c s).curCmd = s.curCmd := rfl
@[simp] theorem raise_txBuf (c : Cause) (s : State) : (raise c s).txBuf = [] := rfl
@[simp] theorem raise_txPos (c : Cause) (s : State) : (raise c s).txPos = 0 := rfl
@[simp] theorem raise_rxWin (c : Cause) (s : State) : (raise c s).rxWin = [] := rfl
@[simp] theorem raise_asm (c : Cause) (s : State) : (raise c s).asm = [] := rfl
@[simp] theorem raise_rxAddr (c : Cause) (s : State) : (raise c s).rxAddr = s.rxAddr := rfl
@[simp] theorem raise_rxPid (c : Cause) (s : State) : (raise c s).rxPid = s.rxPid := rfl
@[simp] theorem raise_result (c : Cause) (s : State) : (raise c s).result = some (.failed c) := rfl
@[simp] theorem raise_cancelPend (c : Cause) (s : State) : (raise c s).cancelPend = false := rfl
@[simp] theorem raise_events (c : Cause) (s : State) : (raise c s).events = s.events := rfl
@[simp] theorem raise_onward (c : Cause) (s : State) : (raise c s).onward = s.onward := rfl
@[simp] theorem raise_wire (c : Cause) (s : State) : (raise c s).wire = s.wire := rfl
@[simp] theorem raise_taken (c : Cause) (s : State) : (raise c s).taken = s.taken := rfl
@[simp] theorem raise_freeIdx (c : Cause) (s : State) : (raise c s).freeIdx = s.freeIdx := rfl

@[simp] theorem acceptPacket_params (a : Address) (p : Byte) (s : State) : (acceptPacket a p s).params = s.params := rfl
@[simp] theorem acceptPacket_addr (a : Address) (p : Byte) (s : State) : (acceptPacket a p s).addr = s.addr := rfl
@[simp] theorem acceptPacket_sstate (a : Address) (p : Byte) (s : State) : (acceptPacket a p s).sstate = s.sstate := rfl
@[simp] theorem acceptPacket_curCmd (a : Address) (p : Byte) (s : State) : (acceptPacket a p s).curCmd = s.curCmd := rfl
@[simp] theorem acceptPacket_txBuf (a : Address) (p : Byte) (s : State) : (acceptPacket a p s).txBuf = s.txBuf := rfl
@[simp] theorem acceptPacket_txPos (a : Address) (p : Byte) (s : State) : (acceptPacket a p s).txPos = s.txPos := rfl
@[simp] theorem acceptPacket_rxWin (a : Address) (p : Byte) (s : State) : (acceptPacket a p s).rxWin = [] := rfl
@[simp] theorem acceptPacket_asm (a : Address) (p : Byte) (s : State) : (acceptPacket a p s).asm = s.asm := rfl
@[simp] theorem acceptPacket_rxAddr (a : Address) (p : Byte) (s : State) : (acceptPacket a p s).rxAddr = a := rfl
@[simp] theorem acceptPacket_rxPid (a : Address) (p : Byte) (s : State) : (acceptPacket a p s).rxPid = p := rfl
@[simp] theorem acceptPacket_result (a : Address) (p : Byte) (s : State) : (acceptPacket a p s).result = s.result := rfl
@[simp] theorem acceptPacket_cancelPend (a : Address) (p : Byte) (s : State) : (acceptPacket a p s).cancelPend = s.cancelPend := rfl
@[simp] theorem acceptPacket_events (a : Address) (p : Byte) (s : State) : (acceptPacket a p s).events = s.events := rfl
@[simp] theorem acceptPacket_onward (a : Address) (p : Byte) (s : State) : (acceptPacket a p s).onward = s.onward := rfl
@[simp] theorem acceptPacket_wire (a : Address) (p : Byte) (s : State) : (acceptPacket a p s).wire = s.wire := rfl
@[simp] theorem acceptPacket_taken (a : Address) (p : Byte) (s : State) : (acceptPacket a p s).taken = s.taken := rfl
@[simp] theorem acceptPacket_freeIdx (a : Address) (p : Byte) (s : State) : (acceptPacket a p s).freeIdx = s.freeIdx := rfl

@[simp] theorem takeOutcome_params (s : State) : (takeOutcome s).params = s.params := rfl
@[simp] theorem takeOutcome_addr (s : State) : (takeOutcome s).addr = s.addr := rfl
@[simp] theorem takeOutcome_sstate (s : State) : (takeOutcome s).sstate = .idle := rfl
@[simp] theorem takeOutcome_curCmd (s : State) : (takeOutcome s).curCmd = s.curCmd := rfl
@[simp] theorem takeOutcome_txBuf (s : State) : (takeOutcome s).txBuf = s.txBuf := rfl
@[simp] theorem takeOutcome_txPos (s : State) : (takeOutcome s).txPos = s.txPos := rfl
@[simp] theorem takeOutcome_rxWin (s : State) : (takeOutcome s).rxWin = s.rxWin := rfl
@[simp] theorem takeOutcome_asm (s : State) : (takeOutcome s).asm = s.asm := rfl
@[simp] theorem takeOutcome_rxAddr (s : State) : (takeOutcome s).rxAddr = s.rxAddr := rfl
@[simp] theorem takeOutcome_rxPid (s : State) : (takeOutcome s).rxPid = s.rxPid := rfl
@[simp] theorem takeOutcome_result (s : State) : (takeOutcome s).result = none := rfl
@[simp] theorem takeOutcome_cancelPend (s : State) : (takeOutcome s).cancelPend = s.cancelPend := rfl
@[simp] theorem takeOutcome_events (s : State) : (takeOutcome s).events = s.events := rfl
@[simp] theorem takeOutcome_onward (s : State) : (takeOutcome s).onward = s.onward := rfl
@[simp] theorem takeOutcome_wire (s : State) : (takeOutcome s).wire = s.wire := rfl
@[simp] theorem takeOutcome_taken (s : State) : (takeOutcome s).taken = s.taken ++ s.result.toList := rfl
@[simp] theorem takeOutcome_freeIdx (s : State) : (takeOutcome s).freeIdx = s.freeIdx := rfl

@[simp] theorem resetBlock_params (s : State) : (resetBlock s).params = s.params := rfl
@[simp] theorem resetBlock_addr (s : State) : (resetBlock s).addr = s.addr := rfl
@[simp] theorem resetBlock_sstate (s : State) : (resetBlock s).sstate = .idle := rfl
@[simp] theorem resetBlock_curCmd (s : State) : (resetBlock s).curCmd = Config.freeCommand s.freeIdx := rfl
@[simp] theorem resetBlock_txBuf (s : State) : (resetBlock s).txBuf = [] := rfl
@[simp] theorem resetBlock_txPos (s : State) : (resetBlock s).txPos = 0 := rfl
@[simp] theorem resetBlock_rxWin (s : State) : (resetBlock s).rxWin = [] := rfl
@[simp] theorem resetBlock_asm (s : State) : (resetBlock s).asm = [] := rfl
@[simp] theorem resetBlock_rxAddr (s : State) : (resetBlock s).rxAddr = Config.freeAddress s.freeIdx := rfl
@[simp] theorem resetBlock_rxPid (s : State) : (resetBlock s).rxPid = Config.freePid s.freeIdx := rfl
@[simp] theorem resetBlock_result (s : State) : (resetBlock s).result = none := rfl
@[simp] theorem resetBlock_cancelPend (s : State) : (resetBlock s).cancelPend = false := rfl
@[simp] theorem resetBlock_events (s : State) : (resetBlock s).events = s.events := rfl
@[simp] theorem resetBlock_onward (s : State) : (resetBlock s).onward = s.onward := rfl
@[simp] theorem resetBlock_wire (s : State) : (resetBlock s).wire = s.wire := rfl
@[simp] theorem resetBlock_taken (s : State) : (resetBlock s).taken = s.taken := rfl
@[simp] theorem resetBlock_freeIdx (s : State) : (resetBlock s).freeIdx = s.freeIdx + 1 := rfl

end Sys2Proof.Machine
end

