-- ==== Sys2Proof/Laws/Ops.lean ====
section
/-! SUPPORT. What each shared operation can do, said once; the inversion of one event, `handleEvent_effect`, is
what proofs about steps cite. -/

namespace Sys2Proof.Machine

/-- An acknowledgement completes with an outcome that is no failure, unless it is empty (R145, R151). -/
theorem respDecode_ok {p : Config.Params} {c : CmdId} {k : Completion} {b : List Byte} {o : Result}
    (h : respDecode p c k b = .ok o) : isFailure o = false := by
  unfold respDecode at h
  split at h
  · cases h; rfl
  · split at h
    · cases h
    · split at h <;> cases h <;> rfl

/-- Completion writes an outcome that is no failure, or raises `MalformedAck` for an empty acknowledgement
(R183). -/
theorem complete_cases (k : Completion) (b : List Byte) (s : State) :
    (∃ o, respDecode s.params s.curCmd.id k b = .ok o ∧ isFailure o = false ∧
      complete k b s = { s with result := some o, rxWin := [], asm := [], sstate := .complete }) ∨
    (k = .ack ∧ b = [] ∧ complete k b s = raise .malformedAck s) := by
  cases h : respDecode s.params s.curCmd.id k b with
  | ok o => exact .inl ⟨o, rfl, respDecode_ok h, by simp [complete, h]⟩
  | error e =>
    right
    cases e
    refine ⟨?_, ?_, by simp [complete, h]⟩ <;>
      · unfold respDecode at h
        split at h
        · cases h
        · split at h
          · rfl
          · split at h <;> cases h

/-- A transfer completes with its bytes as they are (R146, R183). -/
theorem complete_xfer (b : List Byte) (s : State) :
    complete .xfer b s =
      { s with result := some (.data b), rxWin := [], asm := [], sstate := .complete } := rfl

theorem appendChunk_fits {p : List Byte} {s : State}
    (h : fitsAsm s.params.asmCap (s.asm.length + p.length) = true) :
    appendChunk p s = { s with asm := s.asm ++ p, sstate := .awaitingMore } := by simp [appendChunk, h]

theorem appendChunk_overflow {p : List Byte} {s : State}
    (h : fitsAsm s.params.asmCap (s.asm.length + p.length) = false) :
    appendChunk p s = raise .asmOverflow s := by simp [appendChunk, h]

theorem finishTransfer_fits {p : List Byte} {s : State}
    (h : fitsAsm s.params.asmCap (s.asm.length + p.length) = true) :
    finishTransfer p s = complete .xfer (s.asm ++ p) s := by simp [finishTransfer, h]

theorem finishTransfer_overflow {p : List Byte} {s : State}
    (h : fitsAsm s.params.asmCap (s.asm.length + p.length) = false) :
    finishTransfer p s = raise .asmOverflow s := by simp [finishTransfer, h]

/-! What the shared operations never write. -/

@[simp] theorem complete_params (k : Completion) (b : List Byte) (s : State) : (complete k b s).params = s.params := by
  obtain ⟨_, _, _, h⟩ | ⟨_, _, h⟩ := complete_cases k b s <;> simp [h]

@[simp] theorem complete_addr (k : Completion) (b : List Byte) (s : State) : (complete k b s).addr = s.addr := by
  obtain ⟨_, _, _, h⟩ | ⟨_, _, h⟩ := complete_cases k b s <;> simp [h]

@[simp] theorem complete_curCmd (k : Completion) (b : List Byte) (s : State) : (complete k b s).curCmd = s.curCmd := by
  obtain ⟨_, _, _, h⟩ | ⟨_, _, h⟩ := complete_cases k b s <;> simp [h]

@[simp] theorem complete_rxAddr (k : Completion) (b : List Byte) (s : State) : (complete k b s).rxAddr = s.rxAddr := by
  obtain ⟨_, _, _, h⟩ | ⟨_, _, h⟩ := complete_cases k b s <;> simp [h]

@[simp] theorem complete_rxPid (k : Completion) (b : List Byte) (s : State) : (complete k b s).rxPid = s.rxPid := by
  obtain ⟨_, _, _, h⟩ | ⟨_, _, h⟩ := complete_cases k b s <;> simp [h]

@[simp] theorem complete_events (k : Completion) (b : List Byte) (s : State) : (complete k b s).events = s.events := by
  obtain ⟨_, _, _, h⟩ | ⟨_, _, h⟩ := complete_cases k b s <;> simp [h]

@[simp] theorem complete_onward (k : Completion) (b : List Byte) (s : State) : (complete k b s).onward = s.onward := by
  obtain ⟨_, _, _, h⟩ | ⟨_, _, h⟩ := complete_cases k b s <;> simp [h]

@[simp] theorem complete_wire (k : Completion) (b : List Byte) (s : State) : (complete k b s).wire = s.wire := by
  obtain ⟨_, _, _, h⟩ | ⟨_, _, h⟩ := complete_cases k b s <;> simp [h]

@[simp] theorem complete_taken (k : Completion) (b : List Byte) (s : State) : (complete k b s).taken = s.taken := by
  obtain ⟨_, _, _, h⟩ | ⟨_, _, h⟩ := complete_cases k b s <;> simp [h]

@[simp] theorem complete_freeIdx (k : Completion) (b : List Byte) (s : State) : (complete k b s).freeIdx = s.freeIdx := by
  obtain ⟨_, _, _, h⟩ | ⟨_, _, h⟩ := complete_cases k b s <;> simp [h]

@[simp] theorem appendChunk_params (p : List Byte) (s : State) : (appendChunk p s).params = s.params := by
  unfold appendChunk; split <;> rfl

@[simp] theorem appendChunk_addr (p : List Byte) (s : State) : (appendChunk p s).addr = s.addr := by
  unfold appendChunk; split <;> rfl

@[simp] theorem appendChunk_curCmd (p : List Byte) (s : State) : (appendChunk p s).curCmd = s.curCmd := by
  unfold appendChunk; split <;> rfl

@[simp] theorem appendChunk_rxAddr (p : List Byte) (s : State) : (appendChunk p s).rxAddr = s.rxAddr := by
  unfold appendChunk; split <;> rfl

@[simp] theorem appendChunk_rxPid (p : List Byte) (s : State) : (appendChunk p s).rxPid = s.rxPid := by
  unfold appendChunk; split <;> rfl

@[simp] theorem appendChunk_events (p : List Byte) (s : State) : (appendChunk p s).events = s.events := by
  unfold appendChunk; split <;> rfl

@[simp] theorem appendChunk_onward (p : List Byte) (s : State) : (appendChunk p s).onward = s.onward := by
  unfold appendChunk; split <;> rfl

@[simp] theorem appendChunk_wire (p : List Byte) (s : State) : (appendChunk p s).wire = s.wire := by
  unfold appendChunk; split <;> rfl

@[simp] theorem appendChunk_taken (p : List Byte) (s : State) : (appendChunk p s).taken = s.taken := by
  unfold appendChunk; split <;> rfl

@[simp] theorem appendChunk_freeIdx (p : List Byte) (s : State) : (appendChunk p s).freeIdx = s.freeIdx := by
  unfold appendChunk; split <;> rfl

@[simp] theorem finishTransfer_params (p : List Byte) (s : State) : (finishTransfer p s).params = s.params := by
  unfold finishTransfer; split <;> simp

@[simp] theorem finishTransfer_addr (p : List Byte) (s : State) : (finishTransfer p s).addr = s.addr := by
  unfold finishTransfer; split <;> simp

@[simp] theorem finishTransfer_curCmd (p : List Byte) (s : State) : (finishTransfer p s).curCmd = s.curCmd := by
  unfold finishTransfer; split <;> simp

@[simp] theorem finishTransfer_rxAddr (p : List Byte) (s : State) : (finishTransfer p s).rxAddr = s.rxAddr := by
  unfold finishTransfer; split <;> simp

@[simp] theorem finishTransfer_rxPid (p : List Byte) (s : State) : (finishTransfer p s).rxPid = s.rxPid := by
  unfold finishTransfer; split <;> simp

@[simp] theorem finishTransfer_events (p : List Byte) (s : State) : (finishTransfer p s).events = s.events := by
  unfold finishTransfer; split <;> simp

@[simp] theorem finishTransfer_onward (p : List Byte) (s : State) : (finishTransfer p s).onward = s.onward := by
  unfold finishTransfer; split <;> simp

@[simp] theorem finishTransfer_wire (p : List Byte) (s : State) : (finishTransfer p s).wire = s.wire := by
  unfold finishTransfer; split <;> simp

@[simp] theorem finishTransfer_taken (p : List Byte) (s : State) : (finishTransfer p s).taken = s.taken := by
  unfold finishTransfer; split <;> simp

@[simp] theorem finishTransfer_freeIdx (p : List Byte) (s : State) : (finishTransfer p s).freeIdx = s.freeIdx := by
  unfold finishTransfer; split <;> simp

@[simp] theorem finishWrite_params (s : State) : (finishWrite s).params = s.params := by
  unfold finishWrite; dsimp only; split <;> rfl

@[simp] theorem finishWrite_addr (s : State) : (finishWrite s).addr = s.addr := by
  unfold finishWrite; dsimp only; split <;> rfl

@[simp] theorem finishWrite_curCmd (s : State) : (finishWrite s).curCmd = s.curCmd := by
  unfold finishWrite; dsimp only; split <;> rfl

@[simp] theorem finishWrite_rxAddr (s : State) : (finishWrite s).rxAddr = s.rxAddr := by
  unfold finishWrite; dsimp only; split <;> rfl

@[simp] theorem finishWrite_rxPid (s : State) : (finishWrite s).rxPid = s.rxPid := by
  unfold finishWrite; dsimp only; split <;> rfl

@[simp] theorem finishWrite_events (s : State) : (finishWrite s).events = s.events := by
  unfold finishWrite; dsimp only; split <;> rfl

@[simp] theorem finishWrite_onward (s : State) : (finishWrite s).onward = s.onward := by
  unfold finishWrite; dsimp only; split <;> rfl

@[simp] theorem finishWrite_wire (s : State) : (finishWrite s).wire = s.wire := by
  unfold finishWrite; dsimp only; split <;> rfl

@[simp] theorem finishWrite_taken (s : State) : (finishWrite s).taken = s.taken := by
  unfold finishWrite; dsimp only; split <;> rfl

@[simp] theorem finishWrite_freeIdx (s : State) : (finishWrite s).freeIdx = s.freeIdx := by
  unfold finishWrite; dsimp only; split <;> rfl

/-- A shorter payload fits where a longer one does. -/
theorem fitsAsm_mono {cap : Option Nat} {m n : Nat} (h : fitsAsm cap n = true) (hmn : m ≤ n) :
    fitsAsm cap m = true := by
  cases cap with
  | none => rfl
  | some c => simp only [fitsAsm, decide_eq_true_eq] at *; omega

/-- Executing a command is issuing it (R163). -/
theorem exec_command {c : Command} {i : Instr} (h : instrCommand i = some c) (s : State) :
    exec i s = issueCommand c s := by
  cases i <;> simp only [instrCommand, reduceCtorEq, Option.some.injEq] at h <;> subst h <;> rfl

/-- So is the event `Issue`, for every command of the table (R132, R163). -/
theorem eventIssue_eq (c : Command) (s : State) : eventIssue c s = issueCommand c s := by
  unfold eventIssue
  split
  · exact exec_command (commandInstr_iff.mp ‹_›) s
  · rfl

theorem instr_command_or_packet (i : Instr) :
    (∃ c, instrCommand i = some c) ∨ (∃ a pid p, packetInstr a pid p = some i) := by
  cases i with
  | cmd a p => exact .inr ⟨a, 0x01, p, rfl⟩
  | data a p => exact .inr ⟨a, 0x02, p, rfl⟩
  | ack a p => exact .inr ⟨a, 0x07, p, rfl⟩
  | endData a p => exact .inr ⟨a, 0x08, p, rfl⟩
  | _ => exact .inl ⟨_, rfl⟩

/-- A packet in a state that drains changes nothing (R185). -/
theorem exec_packet_drained {a : Address} {pid : Byte} {p : List Byte} {i : Instr} {s : State}
    (hi : packetInstr a pid p = some i) (hs : isAwaiting s.sstate = false) : exec i s = .next s := by
  unfold packetInstr at hi
  split_ifs at hi <;> obtain rfl := Option.some.inj hi <;>
    (simp only [exec, execCmd, execData, execAck, execEndData]; cases h : s.sstate <;> simp_all [isAwaiting])

/-- What a command does when it is accepted (R163, R164). -/
theorem issueCommand_next {c : Command} {s t : State} (h : issueCommand c s = .next t) :
    s.sstate = .idle ∧ commandTyped s.params.cmdTab c = true ∧
    (((cmdEncode s.params.cmdTab c).length ≤ Config.maxPayload ∧
        t = { s with
          curCmd := c
          txBuf := rawFrame s.addr 0x01 (cmdEncode s.params.cmdTab c)
          txPos := 0
          sstate := .sent }) ∨
     (Config.maxPayload < (cmdEncode s.params.cmdTab c).length ∧
        t = { s with curCmd := c, result := some (.failed .payloadTooLarge), sstate := .failed })) := by
  unfold issueCommand encodeFrame at h
  split at h
  · cases h
  · rename_i hidle
    split at h
    · cases h
    · rename_i htyped
      refine ⟨by simpa using hidle, by simpa using htyped, ?_⟩
      by_cases hlen : Config.maxPayload < (cmdEncode s.params.cmdTab c).length
      · simp only [hlen, if_true] at h
        cases h
        exact .inr ⟨hlen, rfl⟩
      · simp only [hlen, if_false] at h
        cases h
        exact .inl ⟨by omega, rfl⟩

/-- What one enabled event can do: one constructor per way of R160. -/
inductive Effect (s : State) : Event → State → Prop
  | issued (c : Command) (idle : s.sstate = .idle) (typed : commandTyped s.params.cmdTab c = true)
      (len : (cmdEncode s.params.cmdTab c).length ≤ Config.maxPayload) :
      Effect s (.issue c)
        { s with
          curCmd := c
          txBuf := rawFrame s.addr 0x01 (cmdEncode s.params.cmdTab c)
          txPos := 0
          sstate := .sent }
  | tooLarge (c : Command) (idle : s.sstate = .idle) (typed : commandTyped s.params.cmdTab c = true)
      (len : Config.maxPayload < (cmdEncode s.params.cmdTab c).length) :
      Effect s (.issue c)
        { s with curCmd := c, result := some (.failed .payloadTooLarge), sstate := .failed }
  | taken (ended : isEnded s.sstate = true) : Effect s .takeResult (takeOutcome s)
  | cancelHeld (sent : s.sstate = .sent) (can : s.params.hasCancel = true) :
      Effect s .cancel { s with cancelPend := true }
  | cancelled (awaiting : isAwaiting s.sstate = true) (can : s.params.hasCancel = true) :
      Effect s .cancel (raise .cancelled s)
  | reset : Effect s .reset (resetBlock s)
  | txMore (b : Byte) (sent : s.sstate = .sent) (byte : s.txBuf[s.txPos]? = some b)
      (more : s.txPos + 1 < s.txBuf.length) :
      Effect s .txByte { s with wire := s.wire ++ [b], txPos := s.txPos + 1 }
  | txLast (b : Byte) (sent : s.sstate = .sent) (byte : s.txBuf[s.txPos]? = some b)
      (last : ¬ s.txPos + 1 < s.txBuf.length) :
      Effect s .txByte (finishWrite { s with wire := s.wire ++ [b] })
  | txError (sent : s.sstate = .sent) : Effect s .txError (raise .transportError s)
  | rxError (awaiting : isAwaiting s.sstate = true) : Effect s .rxError (raise .transportError s)
  | timeout (awaiting : isAwaiting s.sstate = true) : Effect s .timeout (raise .timeout s)
  | configured (a : Address) (idle : s.sstate = .idle) : Effect s (.configure a) { s with addr := a }
  | dropped (b : Byte) (drains : isAwaiting s.sstate = false) : Effect s (.rxByte b) s
  | kept (b : Byte) (awaiting : isAwaiting s.sstate = true)
      (verdict : decodeFrame (s.rxWin ++ [b]) = .incomplete) :
      Effect s (.rxByte b) { s with rxWin := s.rxWin ++ [b] }
  | fatal (b : Byte) (cause : Cause) (awaiting : isAwaiting s.sstate = true)
      (verdict : verdictCause (decodeFrame (s.rxWin ++ [b])) = some cause) :
      Effect s (.rxByte b) (raise cause s)
  | unexpected (b : Byte) (a : Address) (pid : Byte) (p : List Byte) (n : Nat)
      (awaiting : isAwaiting s.sstate = true) (verdict : decodeFrame (s.rxWin ++ [b]) = .ok a pid p n)
      (role : pid ≠ 0x02) (role' : pid ≠ 0x08) (role'' : pid = 0x07 → s.sstate = .awaitingMore) :
      Effect s (.rxByte b) (raise .unexpectedPacket (acceptPacket a pid s))
  | acked (b : Byte) (a : Address) (p : List Byte) (n : Nat) (first : s.sstate = .awaitingFirstPacket)
      (verdict : decodeFrame (s.rxWin ++ [b]) = .ok a 0x07 p n) :
      Effect s (.rxByte b) (complete .ack p (acceptPacket a 0x07 s))
  | firstData (b : Byte) (a : Address) (p : List Byte) (n : Nat) (first : s.sstate = .awaitingFirstPacket)
      (verdict : decodeFrame (s.rxWin ++ [b]) = .ok a 0x02 p n) :
      Effect s (.rxByte b) (appendChunk p { acceptPacket a 0x02 s with asm := [] })
  | moreData (b : Byte) (a : Address) (p : List Byte) (n : Nat) (more : s.sstate = .awaitingMore)
      (verdict : decodeFrame (s.rxWin ++ [b]) = .ok a 0x02 p n) :
      Effect s (.rxByte b) (appendChunk p (acceptPacket a 0x02 s))
  | firstEnd (b : Byte) (a : Address) (p : List Byte) (n : Nat) (first : s.sstate = .awaitingFirstPacket)
      (verdict : decodeFrame (s.rxWin ++ [b]) = .ok a 0x08 p n) :
      Effect s (.rxByte b) (complete .xfer p (acceptPacket a 0x08 s))
  | lastEnd (b : Byte) (a : Address) (p : List Byte) (n : Nat) (more : s.sstate = .awaitingMore)
      (verdict : decodeFrame (s.rxWin ++ [b]) = .ok a 0x08 p n) :
      Effect s (.rxByte b) (finishTransfer p (acceptPacket a 0x08 s))

theorem isAwaiting_cases {x : SState} (h : isAwaiting x = true) :
    x = .awaitingFirstPacket ∨ x = .awaitingMore := by
  cases x <;> simp_all [isAwaiting]

theorem judgeWindow_effect {b : Byte} {s t : State} (hs : isAwaiting s.sstate = true)
    (h : judgeWindow (s.rxWin ++ [b]) s = .next t) : Effect s (.rxByte b) t := by
  unfold judgeWindow at h
  split at h
  · cases h; exact .kept b hs ‹_›
  · cases h; exact .fatal b .badMagic hs (by simp [*, verdictCause])
  · cases h; exact .fatal b .badLength hs (by simp [*, verdictCause])
  · cases h; exact .fatal b .checksumError hs (by simp [*, verdictCause])
  · rename_i a pid p n hv
    unfold packetInstr at h
    split_ifs at h with h1 h2 h7 h8
    · subst h1
      obtain hf | hm := isAwaiting_cases hs
      · simp only [exec, execCmd, hf] at h; cases h
        exact .unexpected b a 0x01 p n hs hv (by decide) (by decide) (by simp)
      · simp only [exec, execCmd, hm] at h; cases h
        exact .unexpected b a 0x01 p n hs hv (by decide) (by decide) (by simp)
    · subst h2
      obtain hf | hm := isAwaiting_cases hs
      · simp only [exec, execData, hf] at h; cases h
        exact .firstData b a p n hf hv
      · simp only [exec, execData, hm] at h; cases h
        exact .moreData b a p n hm hv
    · subst h7
      obtain hf | hm := isAwaiting_cases hs
      · simp only [exec, execAck, hf] at h; cases h
        exact .acked b a p n hf hv
      · simp only [exec, execAck, hm] at h; cases h
        exact .unexpected b a 0x07 p n hs hv (by decide) (by decide) (fun _ => hm)
    · subst h8
      obtain hf | hm := isAwaiting_cases hs
      · simp only [exec, execEndData, hf] at h; cases h
        exact .firstEnd b a p n hf hv
      · simp only [exec, execEndData, hm] at h; cases h
        exact .lastEnd b a p n hm hv
    · simp only [unexpectedPacket] at h; cases h
      exact .unexpected b a pid p n hs hv h2 h8 (fun h => absurd h h7)

/-- The inversion of one event: an event that answers a next state has one of the effects of R160. -/
theorem handleEvent_effect {e : Event} {s t : State} (h : handleEvent e s = .next t) : Effect s e t := by
  cases e with
  | issue c =>
    rw [handleEvent, eventIssue_eq] at h
    obtain ⟨hi, ht, ⟨hl, rfl⟩ | ⟨hl, rfl⟩⟩ := issueCommand_next h
    · exact .issued c hi ht hl
    · exact .tooLarge c hi ht hl
  | takeResult =>
    simp only [handleEvent, eventTakeResult] at h
    split at h <;> cases h
    exact .taken ‹_›
  | cancel =>
    simp only [handleEvent, eventCancel] at h
    split at h
    · cases h
    · rename_i hc
      have hc : s.params.hasCancel = true := by simpa using hc
      split at h <;> cases h
      · exact .cancelHeld ‹_› hc
      · exact .cancelled (by simp [*, isAwaiting]) hc
      · exact .cancelled (by simp [*, isAwaiting]) hc
  | reset => simp only [handleEvent] at h; cases h; exact .reset
  | txByte =>
    simp only [handleEvent, eventTxByte] at h
    split at h
    · cases h
    · rename_i hs
      have hs : s.sstate = .sent := by simpa using hs
      split at h
      · cases h
      · split at h <;> cases h
        · exact .txMore _ hs ‹_› ‹_›
        · exact .txLast _ hs ‹_› ‹_›
  | txError =>
    simp only [handleEvent, eventTxError] at h
    split at h <;> cases h
    exact .txError ‹_›
  | rxByte b =>
    simp only [handleEvent, eventRxByte] at h
    split at h
    · exact judgeWindow_effect ‹_› h
    · rename_i hs
      cases h
      exact .dropped b (by simpa using hs)
  | rxError =>
    simp only [handleEvent, eventRxError] at h
    split at h <;> cases h
    exact .rxError ‹_›
  | timeout =>
    simp only [handleEvent, eventTimeout] at h
    split at h <;> cases h
    exact .timeout ‹_›
  | configure a =>
    simp only [handleEvent, eventConfigure] at h
    split at h <;> cases h
    exact .configured a ‹_›

/-- What `advance` leaves: everything but the schedule. -/
theorem advance_eq (s : State) :
    advance s = { s with
      events := s.events.tail
      onward := if s.events = [] then s.onward.next else s.onward } := by
  unfold advance
  cases h : s.events with
  | nil => simp
  | cons e es => simp

@[simp] theorem advance_params (s : State) : (advance s).params = s.params := by rw [advance_eq]
@[simp] theorem advance_addr (s : State) : (advance s).addr = s.addr := by rw [advance_eq]
@[simp] theorem advance_sstate (s : State) : (advance s).sstate = s.sstate := by rw [advance_eq]
@[simp] theorem advance_curCmd (s : State) : (advance s).curCmd = s.curCmd := by rw [advance_eq]
@[simp] theorem advance_txBuf (s : State) : (advance s).txBuf = s.txBuf := by rw [advance_eq]
@[simp] theorem advance_txPos (s : State) : (advance s).txPos = s.txPos := by rw [advance_eq]
@[simp] theorem advance_rxWin (s : State) : (advance s).rxWin = s.rxWin := by rw [advance_eq]
@[simp] theorem advance_asm (s : State) : (advance s).asm = s.asm := by rw [advance_eq]
@[simp] theorem advance_rxAddr (s : State) : (advance s).rxAddr = s.rxAddr := by rw [advance_eq]
@[simp] theorem advance_rxPid (s : State) : (advance s).rxPid = s.rxPid := by rw [advance_eq]
@[simp] theorem advance_result (s : State) : (advance s).result = s.result := by rw [advance_eq]
@[simp] theorem advance_cancelPend (s : State) : (advance s).cancelPend = s.cancelPend := by rw [advance_eq]
@[simp] theorem advance_wire (s : State) : (advance s).wire = s.wire := by rw [advance_eq]
@[simp] theorem advance_taken (s : State) : (advance s).taken = s.taken := by rw [advance_eq]
@[simp] theorem advance_freeIdx (s : State) : (advance s).freeIdx = s.freeIdx := by rw [advance_eq]

/-- With events listed, the first of them is due. -/
theorem dueEvent_cons {s : State} {e : Event} {es : List Event} (h : s.events = e :: es) :
    dueEvent s = some e := by simp [dueEvent, h]

theorem advance_cons {s : State} {e : Event} {es : List Event} (h : s.events = e :: es) :
    advance s = { s with events := es } := by simp [advance, h]

/-- A step without an event to come waits (R188). -/
theorem step_idle {s : State} (h : dueEvent s = none) : step s = .next s := by
  simp [step, nextEvent, h]

/-- A step takes the event that is due (R161). -/
theorem step_due {s : State} {e : Event} (h : dueEvent s = some e) : step s = handleEvent e (advance s) := by
  simp [step, nextEvent, h]

/-- With events listed, a step takes the first of them (R161). -/
theorem step_cons {s : State} {e : Event} {es : List Event} (h : s.events = e :: es) :
    step s = handleEvent e { s with events := es } := by
  rw [step_due (dueEvent_cons h), advance_cons h]

/-- The inversion of a step. -/
theorem step_cases {s t : State} (h : step s = .next t) :
    (dueEvent s = none ∧ t = s) ∨ (∃ e, dueEvent s = some e ∧ Effect (advance s) e t) := by
  cases he : dueEvent s with
  | none =>
    rw [step_idle he] at h
    cases h
    exact .inl ⟨rfl, rfl⟩
  | some e =>
    rw [step_due he] at h
    exact .inr ⟨e, rfl, handleEvent_effect h⟩

end Sys2Proof.Machine
end

