-- ==== Sys2Proof/Laws/PerInstr.lean ====
section
/-! SUPPORT. What holds of every instruction as syntax, one lemma per constructor: how many bytes it takes. -/

namespace Sys2Proof.Laws.EncodedLength

/-- The bytes of a packet with this payload: header, payload and checksum (R60). -/
def packet (payload : List Byte) : Nat := Config.hdrLen + payload.length + 2

/-- The bytes of a command payload: the code and the row's parameters (R120). -/
def command (row : Config.CmdRow) : Nat := 1 + (rowWidths row).sum

/-- How many bytes an instruction takes at its port. -/
def expected (tab : Config.CmdTab) : Instr → Nat
  | .cmd _ payload => packet payload
  | .data _ payload => packet payload
  | .ack _ payload => packet payload
  | .endData _ payload => packet payload
  | .auth _ => command tab.auth
  | .status => command tab.status
  | .capture => command tab.capture
  | .convert _ => command tab.convert
  | .search _ _ _ => command tab.search
  | .enroll => command tab.enroll
  | .store _ _ => command tab.store
  | .delete _ _ => command tab.delete

/-- A well-formed instruction takes as many bytes as its format gives it. -/
def Statement (i : Instr) : Prop :=
  ∀ tab : Config.CmdTab, wellFormed tab i = true → (encode tab i).2.length = expected tab i

theorem packet_length (a : Address) (pid : Byte) (p : List Byte) :
    (rawFrame a pid p).length = packet p := by
  simp only [length_rawFrame, packet, Config.hdrLen]; omega

theorem command_length {tab : Config.CmdTab} {c : Command} {row : Config.CmdRow}
    (hr : cmdRow tab c.id = some row) (h : commandTyped tab c = true) :
    (cmdEncode tab c).length = command row := by
  rw [commandTyped_row hr] at h
  rw [cmdEncode_row hr, length_encodeRow h, command]

theorem cmd (a : Address) (p : List Byte) : Statement (.cmd a p) := fun _ _ => packet_length a _ p
theorem data (a : Address) (p : List Byte) : Statement (.data a p) := fun _ _ => packet_length a _ p
theorem ack (a : Address) (p : List Byte) : Statement (.ack a p) := fun _ _ => packet_length a _ p
theorem endData (a : Address) (p : List Byte) : Statement (.endData a p) := fun _ _ => packet_length a _ p
theorem auth (v : Nat) : Statement (.auth v) :=
  fun _ h => command_length (c := ⟨.auth, [v]⟩) rfl h
theorem status : Statement .status :=
  fun _ h => command_length (c := ⟨.status, []⟩) rfl h
theorem capture : Statement .capture :=
  fun _ h => command_length (c := ⟨.capture, []⟩) rfl h
theorem convert (b : Nat) : Statement (.convert b) :=
  fun _ h => command_length (c := ⟨.convert, [b]⟩) rfl h
theorem search (b v w : Nat) : Statement (.search b v w) :=
  fun _ h => command_length (c := ⟨.search, [b, v, w]⟩) rfl h
theorem enroll : Statement .enroll :=
  fun _ h => command_length (c := ⟨.enroll, []⟩) rfl h
theorem store (b v : Nat) : Statement (.store b v) :=
  fun _ h => command_length (c := ⟨.store, [b, v]⟩) rfl h
theorem delete (v w : Nat) : Statement (.delete v w) :=
  fun _ h => command_length (c := ⟨.delete, [v, w]⟩) rfl h

end Sys2Proof.Laws.EncodedLength
end

