-- ==== Sys2Proof/Tests/Slice0.lean ====
section
/-! SUPPORT. The model's own tests, one step or one function call each, with the expected bytes taken from spec
95_test_vectors.md; and, for every statement with hypotheses, a witness that meets them. -/

namespace Sys2Proof.Tests

open Sys2Proof.Machine

/-! ## Helpers -/

/-- A session in a given state, every register at a value of its own, nothing to come. -/
def session (x : SState) : State :=
  { State.reset with sstate := x, curCmd := ⟨.capture, []⟩, rxAddr := 0x0A0B0C0D, rxPid := 0x33 }

/-- The same with a bound on the reassembly buffer. -/
def bounded (x : SState) (cap : Nat) : State :=
  { session x with params := { Config.defaultParams with asmCap := some cap } }

/-- The last byte of a frame is about to arrive. -/
def receiving (s : State) (frame : List Byte) : State :=
  { s with rxWin := frame.dropLast, events := [.rxByte (frame.getLastD 0)] }

/-- One event is about to happen. -/
def facing (s : State) (e : Event) : State := { s with events := [e] }

/-- What a next state answers to a question; none for a stop. -/
def ask {α : Type} (o : Host.Outcome State Fault Refusal) (question : State → α) : Option α :=
  match o with
  | .next t => some (question t)
  | .fault _ => none
  | .refused _ => none

/-- The frame of `STATUS` (V-CMD4). -/
def statusFrame : List Byte := [0xEF, 0x01, 0xFF, 0xFF, 0xFF, 0xFF, 0x01, 0x00, 0x03, 0x0F, 0x00, 0x13]

/-- A success acknowledgement (V-RSP1). -/
def ackFrame : List Byte := [0xEF, 0x01, 0xFF, 0xFF, 0xFF, 0xFF, 0x07, 0x00, 0x03, 0x00, 0x00, 0x0A]

/-- A data packet, `d1` of V-SES5. -/
def dataFrame : List Byte :=
  [0xEF, 0x01, 0xFF, 0xFF, 0xFF, 0xFF, 0x02, 0x00, 0x05, 0x11, 0x22, 0x33, 0x00, 0x6D]

/-- An end-of-data packet, `e3` of V-SES6. -/
def endFrame : List Byte := [0xEF, 0x01, 0xFF, 0xFF, 0xFF, 0xFF, 0x08, 0x00, 0x03, 0x66, 0x00, 0x71]

/-- The frame of V-DEC16. -/
def coincidenceFrame : List Byte :=
  [0xEF, 0x01, 0xFF, 0xFF, 0xFF, 0xFF, 0x07, 0x00, 0x06, 0x00, 0x09, 0x00, 0x00, 0x00, 0x16]

/-- A table in which every parameter is too narrow for its operand, and every other row has one too many. -/
def narrowTab : Config.CmdTab where
  auth    := ⟨0x13, [⟨.password, 3⟩]⟩
  status  := ⟨0x0F, [⟨.count, 1⟩]⟩
  capture := ⟨0x01, [⟨.count, 1⟩]⟩
  convert := ⟨0x02, [⟨.buffer, 0⟩]⟩
  search  := ⟨0x04, [⟨.buffer, 1⟩, ⟨.startPage, 2⟩, ⟨.pageSpan, 1⟩]⟩
  enroll  := ⟨0x05, [⟨.count, 1⟩]⟩
  store   := ⟨0x06, [⟨.buffer, 1⟩, ⟨.index, 1⟩]⟩
  delete  := ⟨0x0C, [⟨.startIndex, 1⟩, ⟨.count, 2⟩]⟩
  extra   := []

/-- The default table with a ninth row: code 0x1E and one parameter of three bytes (R132). -/
def nineTab : Config.CmdTab := { Config.defaultCmdTab with extra := [⟨0x1E, [⟨.other 0, 3⟩]⟩] }

/-- A table whose `AUTH` payload is `width + 1` bytes; V-SES30 has 65534. -/
def wideTab (width : Nat) : Config.CmdTab :=
  { Config.defaultCmdTab with auth := ⟨0x13, [⟨.password, width⟩]⟩ }

/-- A payload of `n` equal bytes. -/
def filled (n : Nat) (b : Byte) : List Byte := List.replicate n b

theorem length_filled (n : Nat) (b : Byte) : (filled n b).length = n := List.length_replicate

theorem byteSum_filled (n : Nat) (b : Byte) : byteSum (filled n b) = n * b.toNat := by
  simp [byteSum, filled]

theorem byteSum_append (s t : List Byte) : byteSum (s ++ t) = byteSum s + byteSum t := by
  simp [byteSum]

/-! ## Well-formedness: each check refuses an ill-formed term -/

theorem test_wellFormed_refuses_long_payloads :
    [Instr.cmd 0 (filled 65534 0), .data 0 (filled 65534 0), .ack 0 (filled 65534 0),
      .endData 0 (filled 65534 0)].map (wellFormed Config.defaultCmdTab) = [false, false, false, false] := by
  simp [wellFormed, payloadFits, Config.maxPayload, length_filled]

theorem test_wellFormed_accepts_longest_payload :
    wellFormed Config.defaultCmdTab (.data 0 (filled 65533 0)) = true := by
  simp [wellFormed, payloadFits, Config.maxPayload, length_filled]

theorem test_wellFormed_refuses_untyped_commands :
    [Instr.auth 0x01000000, .status, .capture, .convert 1, .search 1 0 0x100, .enroll, .store 1 0x100,
      .delete 0x100 1].map (wellFormed narrowTab) =
    [false, false, false, false, false, false, false, false] := by decide

theorem test_wellFormed_accepts_largest_arguments :
    [Instr.auth 0xFFFFFFFF, .status, .capture, .convert 0xFF, .search 0xFF 0xFFFF 0xFFFF, .enroll,
      .store 0xFF 0xFFFF, .delete 0xFFFF 0xFFFF].map (wellFormed Config.defaultCmdTab) =
    [true, true, true, true, true, true, true, true] := by decide

/-! ## Decoding: words written out from the encodings -/

theorem test_decode_cmd :   -- V-ENC2
    decode Config.defaultCmdTab .wire statusFrame = .ok (.cmd 0xFFFFFFFF [0x0F], []) := by decide

theorem test_decode_data :   -- V-SES5
    decode Config.defaultCmdTab .wire dataFrame = .ok (.data 0xFFFFFFFF [0x11, 0x22, 0x33], []) := by decide

theorem test_decode_ack :   -- V-DEC11: the bytes after the frame are left
    decode Config.defaultCmdTab .wire (ackFrame ++ [0xEF, 0x01, 0x99]) =
      .ok (.ack 0xFFFFFFFF [0x00], [0xEF, 0x01, 0x99]) := by decide

theorem test_decode_endData :   -- V-ENC5
    decode Config.defaultCmdTab .wire
      [0xEF, 0x01, 0x00, 0x00, 0x00, 0x00, 0x08, 0x00, 0x04, 0xEF, 0x01, 0x00, 0xFC] =
      .ok (.endData 0 [0xEF, 0x01], []) := by decide

theorem test_decode_auth :   -- V-CMD2
    decode Config.defaultCmdTab .command [0x13, 0x12, 0x34, 0x56, 0x78] = .ok (.auth 0x12345678, []) := by decide

theorem test_decode_codes_alone :   -- V-CMD4, V-CMD5, V-CMD11
    (decode Config.defaultCmdTab .command [0x0F], decode Config.defaultCmdTab .command [0x01],
      decode Config.defaultCmdTab .command [0x05]) =
    (.ok (.status, []), .ok (.capture, []), .ok (.enroll, [])) := by decide

theorem test_decode_convert :   -- V-CMD8
    decode Config.defaultCmdTab .command [0x02, 0xEF] = .ok (.convert 0xEF, []) := by decide

theorem test_decode_search :   -- V-CMD10
    decode Config.defaultCmdTab .command [0x04, 0x02, 0x01, 0x02, 0x03, 0x04] =
      .ok (.search 2 0x0102 0x0304, []) := by decide

theorem test_decode_store :   -- V-CMD13
    decode Config.defaultCmdTab .command [0x06, 0x02, 0x01, 0xFF] = .ok (.store 2 0x01FF, []) := by decide

theorem test_decode_delete :   -- V-CMD14
    decode Config.defaultCmdTab .command [0x0C, 0x00, 0x05, 0x00, 0x01] = .ok (.delete 5 1, []) := by decide

theorem test_decode_wire_rejects :   -- V-DEC6, V-DEC8, V-DEC11b, V-ENC4
    [decode Config.defaultCmdTab .wire [0xEF, 0x02],
      decode Config.defaultCmdTab .wire [0xEF, 0x01, 0xFF, 0xFF, 0xFF, 0xFF, 0x07, 0x00, 0x00],
      decode Config.defaultCmdTab .wire
        [0xEF, 0x01, 0xFF, 0xFF, 0xFF, 0xFF, 0x07, 0x00, 0x03, 0x00, 0x0A, 0x00],
      decode Config.defaultCmdTab .wire
        [0xEF, 0x01, 0xFF, 0xFF, 0xFF, 0xFF, 0x55, 0x00, 0x04, 0x01, 0x02, 0x00, 0x5C]] =
    [.error .badMagic, .error .badLength, .error .checksumError, .error (.noRole 0x55)] := by decide

theorem test_decode_added_row :   -- R132: a command, but no instruction of the table
    decodeCommand nineTab [0x1E, 0x01, 0x02, 0x03] = .ok (⟨.other 0, [0x010203]⟩, []) ∧
    decode nineTab .command [0x1E, 0x01, 0x02, 0x03] = .error (.noInstruction ⟨.other 0, [0x010203]⟩) := by decide

theorem test_decode_command_rejects :   -- no code, a code of no row, a parameter missing
    [decode Config.defaultCmdTab .command [], decode Config.defaultCmdTab .command [0x00],
      decode Config.defaultCmdTab .command [0x06, 0x01, 0x00]] =
    [.error .noCode, .error (.unknownCode 0x00), .error .truncated] := by decide

/-! ## Checksum, codec, response decoder, split -/

theorem test_source_example :   -- V-SRC1
    (rawFrame 0xFFFFFFFF 0x07
      [0x00, 0x00, 0x00, 0x00, 0x00, 0xC8, 0x00, 0x03, 0xFF, 0xFF, 0xFF, 0xFF, 0x00, 0x02, 0x00, 0x06]) =
    [0xEF, 0x01, 0xFF, 0xFF, 0xFF, 0xFF, 0x07, 0x00, 0x12, 0x00, 0x00, 0x00, 0x00, 0x00, 0xC8, 0x00, 0x03,
      0xFF, 0xFF, 0xFF, 0xFF, 0x00, 0x02, 0x00, 0x06, 0x04, 0xE8] := by decide

theorem test_length_bytes_added_separately :   -- V-CK5: not 0x0103
    checksum 0x01 0x0102 (filled 256 0) = 0x0004 := by
  rw [checksum, byteSum_filled]; decide

theorem test_checksum_wraps :   -- V-CK7
    checksum 0x07 0x0103 (filled 256 0xFF ++ [0xF5]) = 0x0000 := by
  rw [checksum, byteSum_append, byteSum_filled]; decide

theorem test_length_bit_coincidence :   -- V-DEC16
    decodeFrame (flipAt coincidenceFrame 8 2) = .ok 0xFFFFFFFF 0x07 [] 11 := by decide

theorem test_response_categories :   -- V-RSP5, V-RSP13, V-RSP14, V-RSP17
    (respDecode Config.defaultParams .search .ack [0x63], respDecode Config.defaultParams .search .ack [0x02, 0xAA],
      respDecode Config.defaultParams .search .ack [], respDecode Config.defaultParams .search .xfer [0x02, 0xAA]) =
    (.ok (.deviceError 0x63 .unknown), .ok (.deviceError 0x02 .noFinger), .error .malformedAck,
      .ok (.data [0x02, 0xAA])) := by decide

theorem test_field_view :   -- V-RSP3, V-RSP4
    (fieldView (some [⟨.index, 2⟩, ⟨.score, 2⟩]) [0x00, 0x05, 0x00, 0x64],
      fieldView (some [⟨.index, 2⟩, ⟨.score, 1⟩]) [0x00, 0x05, 0x00, 0x64]) =
    (some [(.index, 5), (.score, 100)], none) := by decide

theorem test_split :   -- V-SPL1, V-SPL5, V-SPL6
    (splitPayload [0x11, 0x22, 0x33, 0x44, 0x55, 0x66] ⟨3, by decide⟩, splitPayload [] ⟨3, by decide⟩,
      splitPayload [0x11, 0x22] ⟨1, by decide⟩) =
    ([(0x02, [0x11, 0x22, 0x33]), (0x08, [0x44, 0x55, 0x66])], [(0x08, [])],
      [(0x02, [0x11]), (0x08, [0x22])]) := by decide

/-! ## Steps: the commands load the frames of V-CMD -/

theorem test_step_auth :   -- V-CMD3
    ask (step (facing (session .idle) (.issue ⟨.auth, [0xFFFFFFFF]⟩))) (fun t => (t.sstate, t.txBuf)) =
    some (.sent, [0xEF, 0x01, 0xFF, 0xFF, 0xFF, 0xFF, 0x01, 0x00, 0x07, 0x13, 0xFF, 0xFF, 0xFF, 0xFF, 0x04,
      0x17]) := by decide

theorem test_step_status :   -- V-CMD17: another address
    ask (step (facing { session .idle with addr := 0x12345678 } (.issue ⟨.status, []⟩))) (fun t => (t.sstate, t.txBuf)) =
    some (.sent, [0xEF, 0x01, 0x12, 0x34, 0x56, 0x78, 0x01, 0x00, 0x03, 0x0F, 0x00, 0x13]) := by decide

theorem test_step_capture :   -- V-CMD5
    ask (step (facing (session .idle) (.issue ⟨.capture, []⟩))) (fun t => (t.sstate, t.txBuf)) =
    some (.sent, [0xEF, 0x01, 0xFF, 0xFF, 0xFF, 0xFF, 0x01, 0x00, 0x03, 0x01, 0x00, 0x05]) := by decide

theorem test_step_convert :   -- V-CMD8
    ask (step (facing (session .idle) (.issue ⟨.convert, [0xEF]⟩))) (fun t => (t.sstate, t.txBuf)) =
    some (.sent, [0xEF, 0x01, 0xFF, 0xFF, 0xFF, 0xFF, 0x01, 0x00, 0x04, 0x02, 0xEF, 0x00, 0xF6]) := by decide

theorem test_step_search :   -- V-CMD10
    ask (step (facing (session .idle) (.issue ⟨.search, [2, 0x0102, 0x0304]⟩))) (fun t => (t.sstate, t.txBuf)) =
    some (.sent, [0xEF, 0x01, 0xFF, 0xFF, 0xFF, 0xFF, 0x01, 0x00, 0x08, 0x04, 0x02, 0x01, 0x02, 0x03, 0x04,
      0x00, 0x19]) := by decide

theorem test_step_enroll :   -- V-CMD11
    ask (step (facing (session .idle) (.issue ⟨.enroll, []⟩))) (fun t => (t.sstate, t.txBuf)) =
    some (.sent, [0xEF, 0x01, 0xFF, 0xFF, 0xFF, 0xFF, 0x01, 0x00, 0x03, 0x05, 0x00, 0x09]) := by decide

theorem test_step_store :   -- V-CMD13
    ask (step (facing (session .idle) (.issue ⟨.store, [2, 0x01FF]⟩))) (fun t => (t.sstate, t.txBuf)) =
    some (.sent, [0xEF, 0x01, 0xFF, 0xFF, 0xFF, 0xFF, 0x01, 0x00, 0x06, 0x06, 0x02, 0x01, 0xFF, 0x01,
      0x0F]) := by decide

theorem test_step_delete :   -- V-CMD16
    ask (step (facing (session .idle) (.issue ⟨.delete, [0xFFFF, 0xFFFF]⟩))) (fun t => (t.sstate, t.txBuf)) =
    some (.sent, [0xEF, 0x01, 0xFF, 0xFF, 0xFF, 0xFF, 0x01, 0x00, 0x07, 0x0C, 0xFF, 0xFF, 0xFF, 0xFF, 0x04,
      0x10]) := by decide

theorem test_step_added_row :   -- R132: a ninth row is data alone
    ask (step (facing { session .idle with params := { Config.defaultParams with cmdTab := nineTab } }
      (.issue ⟨.other 0, [0x010203]⟩))) (fun t => (t.sstate, t.txBuf)) =
    some (.sent, [0xEF, 0x01, 0xFF, 0xFF, 0xFF, 0xFF, 0x01, 0x00, 0x06, 0x1E, 0x01, 0x02, 0x03, 0x00,
      0x2B]) := by decide

theorem test_step_wider_parameter :   -- R6, R120: a password of eight bytes
    ask (step (facing { session .idle with params := { Config.defaultParams with cmdTab := wideTab 8 } }
      (.issue ⟨.auth, [0x0102030405060708]⟩))) (fun t => (t.sstate, t.txBuf)) =
    some (.sent, [0xEF, 0x01, 0xFF, 0xFF, 0xFF, 0xFF, 0x01, 0x00, 0x0B, 0x13, 0x01, 0x02, 0x03, 0x04, 0x05,
      0x06, 0x07, 0x08, 0x00, 0x43]) := by decide

/-! ## Steps: the packets -/

theorem test_step_ack :   -- V-SES1
    ask (step (receiving (session .awaitingFirstPacket) ackFrame)) (fun t => (t.sstate, t.result, t.rxPid)) =
    some (.complete, some (.success .capture [] none), 0x07) := by decide

theorem test_step_late_ack :   -- V-SES9
    ask (step (receiving { session .awaitingMore with asm := [0x11] } ackFrame))
      (fun t => (t.sstate, t.result, t.rxPid, t.asm)) =
    some (.failed, some (.failed .unexpectedPacket), 0x07, []) := by decide

theorem test_step_data :   -- V-SES5
    ask (step (receiving (session .awaitingFirstPacket) dataFrame)) (fun t => (t.sstate, t.asm, t.result)) =
    some (.awaitingMore, [0x11, 0x22, 0x33], none) := by decide

theorem test_step_data_overflows :   -- V-SES22
    ask (step (receiving { bounded .awaitingMore 4 with asm := [0x11, 0x22, 0x33] }
      [0xEF, 0x01, 0xFF, 0xFF, 0xFF, 0xFF, 0x02, 0x00, 0x04, 0x44, 0x55, 0x00, 0x9F]))
      (fun t => (t.sstate, t.result, t.rxPid)) =
    some (.failed, some (.failed .asmOverflow), 0x02) := by decide

theorem test_step_endData :   -- V-SES26: equal to the capacity fits
    ask (step (receiving { bounded .awaitingMore 6 with asm := [0x11, 0x22, 0x33, 0x44, 0x55] } endFrame))
      (fun t => (t.sstate, t.result)) =
    some (.complete, some (.data [0x11, 0x22, 0x33, 0x44, 0x55, 0x66])) := by decide

theorem test_step_first_endData_bypasses_asm :   -- V-SES24
    ask (step (receiving (bounded .awaitingFirstPacket 2)
      [0xEF, 0x01, 0xFF, 0xFF, 0xFF, 0xFF, 0x08, 0x00, 0x05, 0x11, 0x22, 0x33, 0x00, 0x73]))
      (fun t => (t.sstate, t.result)) =
    some (.complete, some (.data [0x11, 0x22, 0x33])) := by decide

theorem test_step_cmd :   -- V-SES11
    ask (step (receiving (session .awaitingFirstPacket)
      [0xEF, 0x01, 0xFF, 0xFF, 0xFF, 0xFF, 0x01, 0x00, 0x03, 0x01, 0x00, 0x05]))
      (fun t => (t.sstate, t.result, t.rxPid)) =
    some (.failed, some (.failed .unexpectedPacket), 0x01) := by decide

theorem test_step_no_role :   -- V-SES10
    ask (step (receiving (session .awaitingFirstPacket)
      [0xEF, 0x01, 0xFF, 0xFF, 0xFF, 0xFF, 0x55, 0x00, 0x04, 0x01, 0x02, 0x00, 0x5C]))
      (fun t => (t.sstate, t.result, t.rxPid)) =
    some (.failed, some (.failed .unexpectedPacket), 0x55) := by decide

/-! ## Steps: the other events -/

theorem test_step_bad_magic_writes_no_observation :   -- V-SES12
    ask (step (facing (session .awaitingFirstPacket) (.rxByte 0x00)))
      (fun t => (t.sstate, t.result, t.rxAddr, t.rxPid)) =
    some (.failed, some (.failed .badMagic), 0x0A0B0C0D, 0x33) := by decide

theorem test_step_cancel_is_held :   -- V-SES29
    ask (step (facing { session .sent with txBuf := statusFrame, txPos := 5 } .cancel))
      (fun t => (t.sstate, t.txPos, t.cancelPend)) = some (.sent, 5, true) := by decide

theorem test_step_last_byte_then_cancelled :   -- V-SES29
    ask (step (facing { session .sent with txBuf := statusFrame, txPos := 11, cancelPend := true } .txByte))
      (fun t => (t.sstate, t.result, t.wire, t.txBuf, t.cancelPend)) =
    some (.failed, some (.failed .cancelled), [0x13], [], false) := by decide

theorem test_step_take_result :   -- V-SES32
    ask (step (facing { session .complete with result := some (.success .capture [] none) } .takeResult))
      (fun t => (t.sstate, t.result, t.taken)) =
    some (.idle, none, [.success .capture [] none]) := by decide

theorem test_step_drain :   -- V-SES31
    ask (step (facing { session .sent with txBuf := statusFrame, txPos := 3 } (.rxByte 0xEF)))
      (fun t => (t.sstate, t.rxWin, t.txPos)) = some (.sent, [], 3) := by decide

theorem test_step_repeats :   -- R188(b): the first byte of a cycle is taken and comes again
    ask (step { session .awaitingMore with onward := .again [.rxByte 0xEF, .rxByte 0x01] })
      (fun t => (t.rxWin, t.events, t.onward)) =
    some ([0xEF], [], .again [.rxByte 0x01, .rxByte 0xEF]) := by decide

/-! ## Table words -/

theorem test_table_words_decode :   -- R63, R72, R73; log 14
    (decodeTableWord 8 0x07, decodeTableWord 8 0x08, decodeTableWord 8 0x13, decodeTableWord 16 0x0102,
      decodeTableWord 8 0xEE) =
    (some (.ack 0 [0x00]), some (.endData 0 []), some (.auth 0), some (.convert 1), none) := by decide

theorem test_placed_word_runs_next :   -- log 15
    (ask (step ((session .idle).withFetchWord 16 0x0102)) (fun t => (t.sstate, t.curCmd)),
      ask (step ((session .idle).withFetchWord 8 0x02)) (fun t => (t.sstate, t.rxPid))) =
    (some (.sent, ⟨.convert, [1]⟩), some (.awaitingMore, 0x02)) := by decide

/-! ## Witnesses: for every statement with hypotheses, values that meet them, each clause at a boundary -/

/-- A frame of the longest payload is encoded, and a payload one byte longer is not. -/
theorem encode_longest (a : Address) (pid b : Byte) :
    encodeFrame a pid (filled 65533 b) = .ok (rawFrame a pid (filled 65533 b)) := by
  simp only [encodeFrame, Config.maxPayload, length_filled, lt_irrefl, if_false]

theorem witness_SerialAccumulatorInAnyOrderIsChecksum :
    [(0x0F : Byte), 0x03, 0x00, 0x01].Perm ([0x01] ++ spellBE (0x0003 : Word16).toNat 2 ++ [0x0F]) := by decide

theorem witness_EncodeLaysOutTheFrame :
    (filled 65533 0xFF).length ≤ 65533 ∧ 65533 < (filled 65534 0xFF).length := by
  simp only [length_filled]; decide

theorem witness_DecodeOfEncodeIsThePacket :
    encodeFrame 0xFFFFFFFF 0x01 [0x0F] = .ok statusFrame ∧
    encodeFrame 0xFFFFFFFF 0x01 (filled 65533 0xFF) = .ok (rawFrame 0xFFFFFFFF 0x01 (filled 65533 0xFF)) :=
  ⟨by decide, encode_longest _ _ _⟩

theorem witness_DecodedBytesAreTheEncoding :
    decodeFrame (ackFrame ++ [0xEF]) = .ok 0xFFFFFFFF 0x07 [0x00] 12 := by decide

theorem witness_StrictPrefixesAreIncomplete :
    encodeFrame 0xFFFFFFFF 0x01 [0x0F] = .ok statusFrame ∧ 0 < statusFrame.length ∧ 11 < statusFrame.length := by
  decide

theorem witness_VerdictsOtherThanIncompleteAreFinal :
    decodeFrame [0x00] ≠ .incomplete ∧ decodeFrame ackFrame ≠ .incomplete := by decide

/-- The longest window that is still incomplete: the longest frame without its last byte. -/
theorem witness_IncompleteWindowIsShorterThanMaxFrame :
    decodeFrame ([0xEF, 0x01, 0x00, 0x00, 0x00, 0x00, 0x01, 0xFF, 0xFF] ++ filled 65534 0xFF) = .incomplete := by
  have h := decodeFrame_header (a0 := 0) (a1 := 0) (a2 := 0) (a3 := 0) (pid := 1) (l1 := 0xFF) (l0 := 0xFF)
    (body := filled 65534 0xFF) (L := 65535) (by decide)
  rw [length_filled, if_neg (by decide), if_pos (by decide)] at h
  exact h

theorem witness_ShortBodyIsIncompleteAndWrongSumIsChecksumError :
    2 ≤ (0x00 : Byte).toNat * 256 + (0x02 : Byte).toNat ∧
    [(0x00 : Byte)].length < (0x00 : Byte).toNat * 256 + (0x02 : Byte).toNat ∧
    [(0x00 : Byte), 0x0A] = [] ++ [0x00, 0x0A] ++ [] ∧
    ([] : List Byte).length + 2 = (0x00 : Byte).toNat * 256 + (0x02 : Byte).toNat ∧
    (0x00 : Byte).toNat * 256 + (0x0A : Byte).toNat ≠
      ((0x07 : Byte).toNat + (0x00 : Byte).toNat + (0x02 : Byte).toNat + (([] : List Byte).map BitVec.toNat).sum)
        % 65536 := by decide

theorem witness_MagicHeaderAndLengthVerdicts :
    (0xEE : Byte) ≠ 0xEF ∧ (0x81 : Byte) ≠ 0x01 ∧ (filled 6 0xFF).length < 7 ∧
    (0x00 : Byte).toNat * 256 + (0x00 : Byte).toNat < 2 ∧ (0x00 : Byte).toNat * 256 + (0x01 : Byte).toNat < 2 := by
  decide

/-- One bit of V-DEC16's frame for each field and each outcome of the length: larger, smaller and at least 2, and,
on the acknowledgement of V-DEC15a, below 2. -/
theorem witness_OneFlippedBitByField :
    encodeFrame 0xFFFFFFFF 0x07 [0x00, 0x09, 0x00, 0x00] = .ok coincidenceFrame ∧
    encodeFrame 0xFFFFFFFF 0x07 [0x00] = .ok ackFrame ∧ 14 < coincidenceFrame.length ∧ 8 < ackFrame.length ∧
    [0x00, 0x09, 0x00, 0x00].length + 2 < lengthField (flipAt coincidenceFrame 7 0) ∧
    2 ≤ lengthField (flipAt coincidenceFrame 8 2) ∧
    lengthField (flipAt coincidenceFrame 8 2) < [0x00, 0x09, 0x00, 0x00].length + 2 ∧
    lengthField (flipAt ackFrame 8 1) < 2 := by decide

theorem distinctCodes_default : distinctCodes Config.defaultCmdTab := by
  unfold distinctCodes; decide

theorem defaultWidths_default : defaultWidths Config.defaultCmdTab := by
  unfold defaultWidths; decide

theorem witness_DecodeOfEncodeIsTheInstruction :
    distinctCodes Config.defaultCmdTab ∧ distinctCodes nineTab ∧
    wellFormed Config.defaultCmdTab (.delete 0xFFFF 0xFFFF) = true ∧
    wellFormed Config.defaultCmdTab (.ack 0xFFFFFFFF (filled 65533 0xFF)) = true ∧
    commandTyped nineTab ⟨.other 0, [0xFFFFFF]⟩ = true :=
  ⟨distinctCodes_default, by unfold distinctCodes; decide, by decide,
    by simp [wellFormed, payloadFits, Config.maxPayload, length_filled], by decide⟩

theorem witness_DecodedInstructionIsWellFormed :
    decode Config.defaultCmdTab .command [0x02, 0xFF, 0x99] = .ok (.convert 0xFF, [0x99]) ∧
    decode Config.defaultCmdTab .wire (ackFrame ++ [0x99]) = .ok (.ack 0xFFFFFFFF [0x00], [0x99]) ∧
    decodeCommand nineTab [0x1E, 0xFF, 0xFF, 0xFF, 0x99] = .ok (⟨.other 0, [0xFFFFFF]⟩, [0x99]) := by decide

theorem witness_CommandPayloadIsCodeThenParameters :
    cmdRow Config.defaultCmdTab .search = some Config.defaultCmdTab.search ∧
    commandTyped Config.defaultCmdTab ⟨.search, [0xFF, 0xFFFF, 0xFFFF]⟩ = true ∧
    commandTyped Config.defaultCmdTab ⟨.search, [0x100, 0, 0]⟩ = false ∧
    commandTyped Config.defaultCmdTab ⟨.status, []⟩ = true ∧
    cmdRow nineTab (.other 0) = some ⟨0x1E, [⟨.other 0, 3⟩]⟩ := by decide

theorem witness_AuthStatusCapturePayloads : defaultWidths Config.defaultCmdTab := defaultWidths_default

theorem witness_EveryCommandLoadsItsFrame :
    let c : Command := ⟨.store, [0xFF, 0xFFFF]⟩
    let s := facing (session .idle) (.issue c)
    s.sstate = .idle ∧ commandTyped s.params.cmdTab c = true ∧ (cmdEncode s.params.cmdTab c).length ≤ 65533 ∧
    instrCommand (.store 0xFF 0xFFFF) = some c ∧ s.events = .issue c :: [] := by decide

/-- `AuthLoadsCodeAndPassword`, `StatusCaptureEnrollLoadTheCode`, `ConvertStoreLoadTheirParameters` and
`SearchDeleteLoadTheirParameters`. -/
theorem witness_CommandsLoadTheirFrames :
    (session .idle).sstate = .idle ∧ defaultWidths (session .idle).params.cmdTab :=
  ⟨rfl, defaultWidths_default⟩

theorem wideTab_typed (width : Nat) : commandTyped (wideTab width) ⟨.auth, [0]⟩ = true := by
  simp [commandTyped, cmdRow, rowWidths, wideTab, argsFit]

theorem wideTab_length (width : Nat) : (cmdEncode (wideTab width) ⟨.auth, [0]⟩).length = width + 1 := by
  simp [cmdEncode, encodeRow, cmdRow, rowWidths, wideTab, spellArgs]

theorem witness_OversizeCommandFailsBeforeAnyByte :
    let c : Command := ⟨.auth, [0]⟩
    let s := facing { session .idle with params := { Config.defaultParams with cmdTab := wideTab 65533 } } (.issue c)
    s.sstate = .idle ∧ commandTyped s.params.cmdTab c = true ∧ 65533 < (cmdEncode s.params.cmdTab c).length ∧
    instrCommand (.auth 0) = some c ∧ s.events = .issue c :: [] := by
  refine ⟨rfl, wideTab_typed _, ?_, rfl, rfl⟩
  show 65533 < (cmdEncode (wideTab 65533) ⟨.auth, [0]⟩).length
  rw [wideTab_length]; decide

theorem witness_CommandRefusedWhenBusyOrIllTyped :
    let s := fun x c => facing { session x with params := { Config.defaultParams with cmdTab := narrowTab } } (.issue c)
    (s .sent ⟨.status, []⟩).sstate ≠ .idle ∧ (s .idle ⟨.auth, [0x01000000]⟩).sstate = .idle ∧
    commandTyped narrowTab ⟨.auth, [0x01000000]⟩ = false ∧ commandTyped narrowTab ⟨.status, []⟩ = false ∧
    instrCommand (.auth 0x01000000) = some ⟨.auth, [0x01000000]⟩ ∧ instrCommand .status = some ⟨.status, []⟩ ∧
    (s .idle ⟨.status, []⟩).events = .issue ⟨.status, []⟩ :: [] ∧ cmdRow narrowTab (.other 0) = none := by decide

theorem witness_CommandsChangeOnlyTheirRegisters :
    (∃ t, handleEvent (.issue ⟨.status, []⟩) (session .idle) = .next t) ∧
    instrCommand .status = some ⟨.status, []⟩ ∧ ∃ t, exec .status (session .idle) = .next t :=
  ⟨⟨_, rfl⟩, rfl, _, rfl⟩

/-- `AckZeroCompletesWithSuccess`, `AckNonzeroCompletesWithDeviceError`, `EmptyAckIsMalformed` and
`FirstEndDataCompletesWithItsPayload`. -/
theorem witness_FirstPackets :
    (session .awaitingFirstPacket).sstate = .awaitingFirstPacket ∧ (0x01 : Byte) ≠ 0x00 ∧ (0xFF : Byte) ≠ 0x00 := by
  decide

theorem witness_FirstDataStartsReassembly :
    (bounded .awaitingFirstPacket 3).sstate = .awaitingFirstPacket ∧
    (∀ cap, (bounded .awaitingFirstPacket 3).params.asmCap = some cap →
      [(0x11 : Byte), 0x22, 0x33].length ≤ cap) ∧
    (bounded .awaitingFirstPacket 2).params.asmCap = some 2 ∧ 2 < [(0x11 : Byte), 0x22, 0x33].length :=
  ⟨rfl, fun _ h => by cases h; decide, rfl, by decide⟩

/-- `FurtherDataIsAppended` and `FinalEndDataCompletesTheTransfer`: equal to the capacity, and one more. -/
theorem witness_FurtherPackets :
    let s := fun cap => { bounded .awaitingMore cap with asm := [0x11, 0x22, 0x33] }
    (s 5).sstate = .awaitingMore ∧
    (∀ cap, (s 5).params.asmCap = some cap → (s 5).asm.length + [(0x44 : Byte), 0x55].length ≤ cap) ∧
    (s 4).params.asmCap = some 4 ∧ 4 < (s 4).asm.length + [(0x44 : Byte), 0x55].length :=
  ⟨rfl, fun _ h => by cases h; decide, rfl, by decide⟩

theorem witness_CmdPacketAndLateAckAreUnexpected :
    ((session .awaitingFirstPacket).sstate = .awaitingFirstPacket) ∧
    ((session .awaitingMore).sstate = .awaitingMore) := by decide

theorem witness_BytesAreDrainedOutsideTheAwaitingStates :
    let s := facing (session .idle) (.rxByte 0xEF)
    s.sstate ≠ .awaitingFirstPacket ∧ s.sstate ≠ .awaitingMore ∧ s.events = .rxByte 0xEF :: [] := by decide

theorem witness_PacketsChangeOnlyTheirRegisters :
    instrCommand (.data 0 [0x11]) = none ∧
    (∃ t, exec (.data 0 [0x11]) (session .awaitingMore) = .next t ∧ t.sstate = .awaitingMore) ∧
    (∃ t, exec (.ack 0 []) (session .awaitingFirstPacket) = .next t ∧ t.sstate = .failed) :=
  ⟨rfl, ⟨_, rfl, rfl⟩, ⟨_, rfl, rfl⟩⟩

theorem witness_ReceivedAddressReachesOnlyRxAddr :
    packetInstr 1 0x08 [0x66] = some (.endData 1 [0x66]) ∧ packetInstr 2 0x08 [0x66] = some (.endData 2 [0x66]) ∧
    ∃ t, exec (.endData 1 [0x66]) (session .awaitingFirstPacket) = .next t :=
  ⟨rfl, rfl, _, rfl⟩

theorem witness_ResponseDecoderFailsOnlyOnEmptyAckAndKeepsRawCodes :
    (0x1F : Byte) ≠ 0x00 ∧ Config.defaultErrCat.lookup 0x1F = some .libraryFull ∧
    ∀ category, ((0x63 : Byte), category) ∉ Config.defaultErrCat :=
  ⟨by decide, rfl, by simp [Config.defaultErrCat]⟩

theorem witness_FieldsCutTheDataBigEndian :
    let layout : List Config.FieldSpec := [⟨.index, 2⟩, ⟨.score, 2⟩]
    [(0x00 : Byte), 0x05, 0x00, 0x64].length = (layout.map Config.FieldSpec.width).sum ∧
    [(0x00 : Byte), 0x05, 0x00].length ≠ (layout.map Config.FieldSpec.width).sum := by decide

theorem witness_StepRunsTheDecodedInstruction :
    (facing (session .idle) (.issue ⟨.status, []⟩)).events = .issue ⟨.status, []⟩ :: [] ∧
    instrCommand .status = some ⟨.status, []⟩ ∧
    (receiving (session .awaitingFirstPacket) ackFrame).events = .rxByte 0x0A :: [] ∧
    (receiving (session .awaitingFirstPacket) ackFrame).sstate = .awaitingFirstPacket ∧
    decode Config.defaultCmdTab .wire ((receiving (session .awaitingFirstPacket) ackFrame).rxWin ++ [0x0A]) =
      .ok (.ack 0xFFFFFFFF [0x00], []) ∧
    (session .idle).events = [] ∧ (session .idle).onward = .quiet ∧
    { session .idle with onward := .again [.timeout] }.onward = .again (.timeout :: []) ∧
    { session .idle with onward := .free 0 }.onward = .free 0 := by decide

theorem witness_IncompleteByteIsKeptAndFatalVerdictRaises :
    (facing (session .awaitingMore) (.rxByte 0xEF)).events = .rxByte 0xEF :: [] ∧
    (facing (session .awaitingMore) (.rxByte 0xEF)).sstate = .awaitingMore ∧
    decodeFrame ((session .awaitingMore).rxWin ++ [0xEF]) = .incomplete ∧
    decodeFrame ((session .awaitingMore).rxWin ++ [0x00]) = .badMagic ∧
    decodeFrame (ackFrame.dropLast ++ [0x0B]) = .checksumError ∧
    decodeFrame ([0xEF, 0x01, 0xFF, 0xFF, 0xFF, 0xFF, 0x07, 0x00] ++ [0x01]) = .badLength := by decide

theorem witness_IdentifierWithoutRoleIsUnexpected :
    let s := receiving (session .awaitingMore)
      [0xEF, 0x01, 0xFF, 0xFF, 0xFF, 0xFF, 0x55, 0x00, 0x04, 0x01, 0x02, 0x00, 0x5C]
    s.events = .rxByte 0x5C :: [] ∧ s.sstate = .awaitingMore ∧
    decodeFrame (s.rxWin ++ [0x5C]) = .ok 0xFFFFFFFF 0x55 [0x01, 0x02] 13 ∧
    (0x55 : Byte) ≠ 0x01 ∧ (0x55 : Byte) ≠ 0x02 ∧ (0x55 : Byte) ≠ 0x07 ∧ (0x55 : Byte) ≠ 0x08 := by decide

theorem witness_TxByteEmitsTheByteAtThePosition :
    let s := fun n => facing { session .sent with txBuf := statusFrame, txPos := n } .txByte
    (s 10).events = .txByte :: [] ∧ (s 10).sstate = .sent ∧ (s 10).txBuf[(s 10).txPos]? = some 0x00 ∧
    (s 10).txPos + 1 < (s 10).txBuf.length ∧
    (s 11).txBuf[(s 11).txPos]? = some 0x13 ∧ (s 11).txPos + 1 = (s 11).txBuf.length := by decide

theorem witness_TheWholeFrameIsWritten :
    let s := fun n => { session .sent with
      txBuf := statusFrame, txPos := n, events := List.replicate (12 - n) Event.txByte ++ [Event.rxByte 0xEF] }
    (s 0).sstate = .sent ∧ (s 0).txPos < (s 0).txBuf.length ∧ (s 11).txPos < (s 11).txBuf.length ∧
    (s 0).events = List.replicate ((s 0).txBuf.length - (s 0).txPos) Event.txByte ++ [Event.rxByte 0xEF] ∧
    (s 11).events = List.replicate ((s 11).txBuf.length - (s 11).txPos) Event.txByte ++ [Event.rxByte 0xEF] := by decide

theorem witness_ReadErrorRaisesTransportError :
    (facing (session .awaitingMore) .rxError).events = .rxError :: [] ∧
    (facing (session .awaitingMore) .rxError).sstate = .awaitingMore := by decide

theorem witness_WriteErrorTimeoutAndCancel :
    (facing (session .sent) .txError).events = .txError :: [] ∧ (session .sent).sstate = .sent ∧
    (facing (session .awaitingMore) .timeout).events = .timeout :: [] ∧
    (session .awaitingMore).sstate = .awaitingMore ∧
    (facing (session .awaitingFirstPacket) .cancel).events = .cancel :: [] ∧
    (session .awaitingFirstPacket).sstate = .awaitingFirstPacket ∧
    (session .awaitingFirstPacket).params.hasCancel = true ∧
    (facing (session .sent) .cancel).events = .cancel :: [] ∧ (session .sent).params.hasCancel = true := by decide

/-- The invariant holds of a session that sends, with a cancel pending or not, at any position in the frame. -/
theorem inv_sending {n : Nat} (h : n < 12) (pending : Bool) :
    Inv { session .sent with txBuf := statusFrame, txPos := n, cancelPend := pending } where
  window_awaiting := by simp [session, State.reset]
  window_incomplete := by rfl
  asm_awaiting_more := by simp [session, State.reset]
  asm_fits := rfl
  frame_sent := fun _ => rfl
  sent_position := fun _ => h
  position_zero := fun hs => absurd rfl hs
  frame_bound := by simp [statusFrame, Config.maxFrame]
  cancel_sent := fun _ => ⟨rfl, rfl⟩
  result_ended := rfl
  result_kind := by simp [session, State.reset]

/-- The invariant holds of a session that has ended in success. -/
theorem inv_completed : Inv { session .complete with result := some (.success .capture [] none) } where
  window_awaiting := by simp [session, State.reset]
  window_incomplete := by decide
  asm_awaiting_more := by simp [session, State.reset]
  asm_fits := rfl
  frame_sent := by simp [session, State.reset]
  sent_position := by simp [session]
  position_zero := fun _ => rfl
  frame_bound := by decide
  cancel_sent := by simp [session, State.reset]
  result_ended := rfl
  result_kind := by rintro _ ⟨⟩; rfl

/-- The invariant does not read the schedule. -/
theorem inv_facing {s : State} (e : Event) (h : Inv s) : Inv (facing s e) :=
  ⟨h.1, h.2, h.3, h.4, h.5, h.6, h.7, h.8, h.9, h.10, h.11⟩

/-- `TakeResultReturnsToCleanIdle` and `OutcomesReachTheHostOnlyByTakeResult`. -/
theorem witness_TakeResultReturnsToCleanIdle :
    let s := facing { session .complete with result := some (.success .capture [] none) } .takeResult
    Inv s ∧ s.events = .takeResult :: [] ∧ s.sstate = .complete ∧ ∃ t, step s = .next t :=
  ⟨inv_facing _ inv_completed, rfl, rfl, _, rfl⟩

theorem witness_ResetGivesCleanIdleFromAnyState :
    (facing (session .failed) .reset).events = .reset :: [] := rfl

theorem witness_OnlyConfigureWritesTheAddress :
    let s := facing (session .idle) (.configure 0x12345678)
    s.events = .configure 0x12345678 :: [] ∧ s.sstate = .idle ∧ ∃ t, step s = .next t ∧ t.addr = 0x12345678 :=
  ⟨rfl, rfl, _, rfl, rfl⟩

theorem witness_EveryStepKeepsTheInvariant :
    let s := facing { session .sent with txBuf := statusFrame, txPos := 11, cancelPend := false } .txByte
    Inv s ∧ ∃ t, step s = .next t ∧ t.sstate = .awaitingFirstPacket :=
  ⟨inv_facing _ (inv_sending (by decide) _), _, rfl, rfl⟩

theorem witness_StepStopsExactlyOnEventsNotEnabled :
    let s := facing { session .complete with result := some (.success .capture [] none) } (.issue ⟨.status, []⟩)
    Inv s ∧ s.events = .issue ⟨.status, []⟩ :: [] ∧ eventEnabled (.issue ⟨.status, []⟩) s = false ∧
    step s = .refused .busy :=
  ⟨inv_facing _ inv_completed, rfl, rfl, rfl⟩

/-- Both ways of `EnteringFailedDiscardsEverything`: with the frame's last byte, and without a byte. -/
theorem witness_EnteringFailedDiscardsEverything :
    let s := facing { session .sent with txBuf := statusFrame, txPos := 11, cancelPend := true } .txByte
    let u := facing { session .sent with txBuf := statusFrame, txPos := 0, cancelPend := false } .txError
    (Inv s ∧ s.sstate ≠ .failed ∧ ∃ t, step s = .next t ∧ t.sstate = .failed) ∧
    (Inv u ∧ u.sstate ≠ .failed ∧ ∃ t, step u = .next t ∧ t.sstate = .failed) :=
  ⟨⟨inv_facing _ (inv_sending (by decide) _), by decide, _, rfl, rfl⟩,
    ⟨inv_facing _ (inv_sending (by decide) _), by decide, _, rfl, rfl⟩⟩

theorem witness_OutcomeStaysUntilTakenOrReset :
    let s := fun e => facing { session .failed with result := some (.failed .timeout) } e
    (s .reset).sstate = .failed ∧ (∃ t, step (s (.rxByte 0xEF)) = .next t) ∧ (∃ t, step (s .takeResult) = .next t) ∧
    (∃ t, step (s .reset) = .next t) ∧
    (∃ t, step { session .failed with onward := .again [.rxByte 0xEF] } = .next t) ∧
    (∃ t, step (session .failed) = .next t) :=
  ⟨rfl, ⟨_, rfl⟩, ⟨_, rfl⟩, ⟨_, rfl⟩, ⟨_, rfl⟩, ⟨_, rfl⟩⟩

theorem witness_AwaitingMoreIsLeftOnlyByEndFailureOrReset :
    (session .awaitingMore).sstate = .awaitingMore ∧
    ask (step (receiving (session .awaitingMore) endFrame)) State.sstate = some .complete ∧
    ask (step (facing (session .awaitingMore) .timeout)) State.sstate = some .failed ∧
    ask (step (facing (session .awaitingMore) .reset)) State.sstate = some .idle := by decide

/-- `CommandRegisterIsStableDuringAnExchange` and `OnlyTxByteWritesTheWire`. -/
theorem witness_StepsAnswerNext :
    (∃ t, step (facing (session .idle) (.issue ⟨.status, []⟩)) = .next t) ∧
    (∃ t, step (facing { session .sent with txBuf := statusFrame } .txByte) = .next t) :=
  ⟨⟨_, rfl⟩, ⟨_, rfl⟩⟩

/-- Both clauses of `ExecutionsThatNeverEndAreKept`, the second with an unbounded and with a full buffer. -/
theorem witness_ExecutionsThatNeverEndAreKept :
    let s := { session .awaitingMore with onward := .again (dataFrame.map Event.rxByte) }
    let u := { bounded .awaitingMore 1 with
      asm := [0x11], onward := .again ((rawFrame 0xFFFFFFFF 0x02 []).map Event.rxByte) }
    ((session .sent).events = [] ∧ (session .sent).onward = .quiet) ∧
    (s.sstate = .awaitingMore ∧ s.rxWin = [] ∧ s.events = [] ∧ [(0x11 : Byte), 0x22, 0x33].length ≤ 65533 ∧
      s.onward = .again ((rawFrame 0xFFFFFFFF 0x02 [0x11, 0x22, 0x33]).map Event.rxByte) ∧
      s.params.asmCap = none) ∧
    (u.sstate = .awaitingMore ∧ u.rxWin = [] ∧ u.events = [] ∧
      ∀ cap, u.params.asmCap = some cap → u.asm.length ≤ cap) :=
  ⟨by decide, by decide, rfl, rfl, rfl, fun _ h => by cases h; decide⟩

theorem witness_SplitTagsAndKeepsEveryByte : [(0x11 : Byte), 0x22] ≠ [] := by decide

/-- A payload as long as the reassembly buffer, in two packets. -/
theorem witness_ReassemblyInvertsSplitting :
    let chunk : Config.Chunk := ⟨1, by decide⟩
    let s := { bounded .awaitingFirstPacket 2 with
      events := (splitFrames 0 [0x11, 0x22] chunk).flatten.map Event.rxByte ++ [Event.takeResult] }
    s.sstate = .awaitingFirstPacket ∧ s.rxWin = [] ∧
    (∀ cap, s.params.asmCap = some cap → [(0x11 : Byte), 0x22].length ≤ cap) ∧
    s.events = (splitFrames 0 [0x11, 0x22] chunk).flatten.map Event.rxByte ++ [Event.takeResult] :=
  ⟨rfl, rfl, fun _ h => by cases h; decide, rfl⟩

end Sys2Proof.Tests
end

section
/-! PROOFS. The checksum (spec 40_checksum.md). -/

namespace Sys2Proof

/-- The first byte of a 16-bit field is its value's quotient by 256 (R41). -/
theorem toNat_word16_highByte (v : Word16) : (v.extractLsb' 8 8).toNat = v.toNat / 256 := by
  have hv := word16Bytes_value v
  have hlow := (v.extractLsb' 0 8).isLt
  omega

/-- The second byte of a 16-bit field is its value's remainder by 256 (R41). -/
theorem toNat_word16_lowByte (v : Word16) : (v.extractLsb' 0 8).toNat = v.toNat % 256 := by
  have hv := word16Bytes_value v
  have hlow := (v.extractLsb' 0 8).isLt
  omega

/-- The checksum as a number: the two bytes of the length field enter by quotient and remainder, and the sum
wraps once, at the end (R90, R91). -/
theorem toNat_checksum (pid : Byte) (len : Word16) (payload : List Byte) :
    (checksum pid len payload).toNat =
      (pid.toNat + len.toNat / 256 + len.toNat % 256 + byteSum payload) % 65536 := by
  rw [checksum, BitVec.toNat_ofNat, toNat_word16_highByte, toNat_word16_lowByte]

/-- Settles O1: the truncation to 16 bits is the remainder by 65536, and the length field's two bytes are its
quotient and remainder by 256. -/
theorem checksumAddsBytesModulo65536 : Obligations.ChecksumAddsBytesModulo65536 :=
  toNat_checksum

end Sys2Proof
end

section
/-! PROOFS. The packet codec (spec 41_packet_codec.md). -/

namespace Sys2Proof

/-- The two bytes of a 16-bit field are its big-endian spelling (R41). -/
theorem word16Bytes_eq_spellBE (v : Word16) : word16Bytes v = spellBE v.toNat 2 := by
  have hread : readBE (word16Bytes v) = v.toNat := by
    simpa [word16Bytes, readBE_cons] using word16Bytes_value v
  rw [← hread]
  exact (spellBE_readBE (word16Bytes v)).symm

/-- The four bytes of an address are its big-endian spelling (R42). -/
theorem addressBytes_eq_spellBE (a : Address) : addressBytes a = spellBE a.toNat 4 := by
  have hread : readBE (addressBytes a) = a.toNat := by
    have hlt : readBE (addressBytes a) < 2 ^ 32 := by simpa using readBE_lt (addressBytes a)
    rw [← Nat.mod_eq_of_lt hlt]
    exact congrArg BitVec.toNat (bytesAddress_addressBytes a)
  rw [← hread]
  exact (spellBE_readBE (addressBytes a)).symm

/-- The length field of an accepted payload does not wrap (R61, R62). -/
theorem toNat_lengthField_word {p : List Byte} (h : p.length ≤ Config.maxPayload) :
    (BitVec.ofNat 16 (p.length + 2)).toNat = p.length + 2 := by
  rw [← word16Bytes_value, frame_length_value h]

/-- `Encode` accepts a payload exactly when it fits the length field, and then answers its frame (R101, R102). -/
theorem encodeFrame_eq_ok_iff {a : Address} {pid : Byte} {p frame : List Byte} :
    encodeFrame a pid p = .ok frame ↔ p.length ≤ Config.maxPayload ∧ frame = rawFrame a pid p := by
  unfold encodeFrame
  split
  case isTrue hlong => simp [Nat.not_le.mpr hlong]
  case isFalse hfits => simp [Nat.le_of_not_lt hfits, eq_comm]

/-- `Decode` on a window that holds a whole frame: the two bytes after the payload are compared with the checksum,
and what follows them is not read (R108, R109). -/
theorem decodeFrame_whole {a0 a1 a2 a3 pid l1 l0 c1 c0 : Byte} {payload more : List Byte}
    (hL : l1.toNat * 256 + l0.toNat = payload.length + 2) :
    decodeFrame (Config.magic0 :: Config.magic1 :: a0 :: a1 :: a2 :: a3 :: pid :: l1 :: l0 ::
        (payload ++ [c1, c0] ++ more)) =
      if c1.toNat * 256 + c0.toNat = (checksum pid (BitVec.ofNat 16 (payload.length + 2)) payload).toNat
      then .ok (bytesAddress [a0, a1, a2, a3]) pid payload (payload.length + 11)
      else .checksumError := by
  have hbody : ¬ (payload ++ [c1, c0] ++ more).length < payload.length + 2 := by simp
  have hstored1 : byteAt (payload ++ [c1, c0] ++ more) payload.length = c1 := by simp [byteAt]
  have hstored0 : byteAt (payload ++ [c1, c0] ++ more) (payload.length + 1) = c0 := by
    simp [byteAt, List.getD_eq_getElem?_getD]
  have htake : (payload ++ [c1, c0] ++ more).take payload.length = payload := by simp
  rw [decodeFrame_header hL, if_neg (by omega), if_neg hbody, Nat.add_sub_cancel,
    show payload.length + 2 - 1 = payload.length + 1 from rfl, hstored1, hstored0, htake, ite_not,
    show 9 + (payload.length + 2) = payload.length + 11 by omega]

/-- `Decode` of a frame and any bytes after it is the packet, with the frame consumed (R109, R112). -/
theorem decodeFrame_rawFrame_append {p : List Byte} (h : p.length ≤ Config.maxPayload) (a : Address) (pid : Byte)
    (more : List Byte) :
    decodeFrame (rawFrame a pid p ++ more) = .ok a pid p (rawFrame a pid p).length := by
  rw [length_rawFrame, rawFrame_cons]
  refine (decodeFrame_whole (frame_length_value h)).trans ?_
  rw [if_pos (word16Bytes_value _)]
  exact congrArg (Verdict.ok · pid p (p.length + 11)) (bytesAddress_addressBytes a)

/-- The checksum over a received length field adds the two bytes that were received (R90, R108). -/
theorem toNat_checksum_received (pid l1 l0 : Byte) (payload : List Byte) :
    (checksum pid (BitVec.ofNat 16 (l1.toNat * 256 + l0.toNat)) payload).toNat =
      (pid.toNat + l1.toNat + l0.toNat + byteSum payload) % 65536 := by
  have h1 := l1.isLt
  have h0 := l0.isLt
  rw [toNat_checksum, BitVec.toNat_ofNat]
  omega

/-- Settles O3: each number of the frame is its big-endian spelling, and `Encode` tests the payload's length
alone. -/
theorem encodeLaysOutTheFrame : Obligations.EncodeLaysOutTheFrame := by
  intro address pid payload
  constructor
  · intro hfits
    rw [encodeFrame_eq_ok_iff.mpr ⟨hfits, rfl⟩, rawFrame, addressBytes_eq_spellBE, word16Bytes_eq_spellBE,
      word16Bytes_eq_spellBE, toNat_lengthField_word hfits]
    rfl
  · exact fun hlong => if_pos hlong

/-- Settles O4: an encoded packet is the frame of a payload that fits, and the decoder reads such a frame back
whatever follows it, here nothing. -/
theorem decodeOfEncodeIsThePacket : Obligations.DecodeOfEncodeIsThePacket := by
  intro address pid payload frame hencode
  obtain ⟨hfits, rfl⟩ := encodeFrame_eq_ok_iff.mp hencode
  simpa using decodeFrame_rawFrame_append hfits address pid []

/-- Settles O9: a body shorter than the length field ends the decoder before its comparison, and a whole body
reaches it. -/
theorem shortBodyIsIncompleteAndWrongSumIsChecksumError :
    Obligations.ShortBodyIsIncompleteAndWrongSumIsChecksumError := by
  intro a0 a1 a2 a3 pid l1 l0 body hlen
  constructor
  · intro hshort
    have hdecode := decodeFrame_header (a0 := a0) (a1 := a1) (a2 := a2) (a3 := a3) (pid := pid) (body := body)
      (hL := Eq.refl (l1.toNat * 256 + l0.toNat))
    rwa [if_neg (Nat.not_lt.mpr hlen), if_pos hshort] at hdecode
  · rintro payload more c1 c0 rfl hL hwrong
    have hdiffers : c1.toNat * 256 + c0.toNat ≠
        (checksum pid (BitVec.ofNat 16 (payload.length + 2)) payload).toNat := by
      rwa [hL, toNat_checksum_received]
    exact (decodeFrame_whole hL.symm).trans (if_neg hdiffers)

end Sys2Proof
end

section
/-! PROOFS. The command encoder (spec 42_command_encoder.md). -/

namespace Sys2Proof

/-- The parameters are the spellings of the width and value pairs, in order; both stop at the shorter list (R120). -/
theorem spellArgs_eq_flatMap_zip (ws vs : List Nat) :
    spellArgs ws vs = (ws.zip vs).flatMap (fun p => spellBE p.2 p.1) := by
  induction ws generalizing vs with
  | nil => rfl
  | cons w ws ih =>
    cases vs with
    | nil => rfl
    | cons v vs => rw [spellArgs, ih, List.zip_cons_cons, List.flatMap_cons]

/-- The payload of a command whose row has the widths `ws`: the row's code, then the parameters (R120, R121). -/
theorem cmdEncode_widths {tab : Config.CmdTab} {id : CmdId} {row : Config.CmdRow} {ws : List Nat}
    (hrow : cmdRow tab id = some row) (hwidths : rowWidths row = ws) (args : List Nat) :
    cmdEncode tab ⟨id, args⟩ = row.icode :: spellArgs ws args := by
  rw [cmdEncode_row hrow, encodeRow, hwidths]

/-- Settles O15: the row decides the typing by `argsFit`, and the payload by `encodeRow`. -/
theorem commandPayloadIsCodeThenParameters : Obligations.CommandPayloadIsCodeThenParameters := by
  intro tab c row hrow
  rw [commandTyped_row hrow, cmdEncode_row hrow]
  refine ⟨argsFit_iff, fun hfit => ⟨?_, length_encodeRow hfit⟩⟩
  rw [encodeRow, spellArgs_eq_flatMap_zip]

/-- Settles O16: the password is spelled as the four bytes of an address are, and the other two rows have no
parameter to spell. -/
theorem authStatusCapturePayloads : Obligations.AuthStatusCapturePayloads := by
  rintro tab password ⟨hauth, hstatus, hcapture, -⟩
  refine ⟨?_, cmdEncode_widths rfl hstatus [], cmdEncode_widths rfl hcapture []⟩
  calc cmdEncode tab ⟨.auth, [password.toNat]⟩
      = tab.auth.icode :: (spellBE password.toNat 4 ++ []) := cmdEncode_widths rfl hauth _
    _ = tab.auth.icode :: addressBytes password := by rw [List.append_nil, addressBytes_eq_spellBE]

end Sys2Proof
end

section
/-! PROOFS. The session (spec 44_session_fsm.md). -/

namespace Sys2Proof

open Machine

/-- The two awaiting states, one by one. -/
theorem isAwaiting_iff {x : SState} : isAwaiting x = true ↔ x = .awaitingFirstPacket ∨ x = .awaitingMore := by
  constructor
  · exact isAwaiting_cases
  · rintro (rfl | rfl) <;> rfl

/-- The step of a received byte in an awaiting state judges the extended window (R168). -/
theorem step_rxByte_awaiting {s : State} {b : Byte} {es : List Event} (hevents : s.events = .rxByte b :: es)
    (hs : isAwaiting s.sstate = true) : step s = judgeWindow (s.rxWin ++ [b]) { s with events := es } :=
  (step_cons hevents).trans (if_pos hs)

/-- An incomplete window is kept (R169). -/
theorem judgeWindow_incomplete {w : List Byte} (hverdict : decodeFrame w = .incomplete) (s : State) :
    judgeWindow w s = .next { s with rxWin := w } := by
  simp only [judgeWindow, hverdict]

/-- A fatal verdict raises its cause (R170). -/
theorem judgeWindow_fatal {w : List Byte} {cause : Cause} (hverdict : verdictCause (decodeFrame w) = some cause)
    (s : State) : judgeWindow w s = .next (raise cause s) := by
  unfold judgeWindow
  generalize decodeFrame w = verdict at hverdict
  cases verdict with
  | badMagic | badLength | checksumError => cases hverdict; rfl
  | incomplete | ok => cases hverdict

/-- Settles O40: in an awaiting state the step is the judgement of the extended window, which has one answer for
`Incomplete` and one for the three fatal verdicts. -/
theorem incompleteByteIsKeptAndFatalVerdictRaises : Obligations.IncompleteByteIsKeptAndFatalVerdictRaises := by
  intro s b es hevents hs
  rw [step_rxByte_awaiting hevents (isAwaiting_iff.mpr hs)]
  refine ⟨fun h => judgeWindow_incomplete h _, ?badMagic, ?checksumError, ?badLength⟩
  all_goals exact fun h => judgeWindow_fatal (congrArg verdictCause h) _

/-- Settles O45: the read error is the next event, and it is enabled in both awaiting states. -/
theorem readErrorRaisesTransportError : Obligations.ReadErrorRaisesTransportError := by
  intro s es hevents hs
  rw [step_cons hevents]
  exact if_pos (isAwaiting_iff.mpr hs)

end Sys2Proof
end

section
/-! PROOFS. The outcome of an exchange, failure and return (spec 60_exceptions.md). -/

namespace Sys2Proof

open Machine

/-- The two ended states, one by one (R24(e)). -/
theorem isEnded_iff {x : SState} : isEnded x = true ↔ x = .complete ∨ x = .failed := by
  cases x <;> decide

/-- An ended state drains: no byte is read into the window there (R185). -/
theorem isAwaiting_eq_false_of_isEnded {x : SState} (h : isEnded x = true) : isAwaiting x = false := by
  obtain rfl | rfl := isEnded_iff.mp h <;> rfl

/-- An ended state with the invariant holds an outcome (R24(e)). -/
theorem exists_result_of_isEnded {s : State} (hinv : Inv s) (hended : isEnded s.sstate = true) :
    ∃ r, s.result = some r :=
  Option.isSome_iff_exists.mp (hinv.result_ended.trans hended)

/-- A state with the invariant in which nothing is written and nothing is read holds nothing of an exchange
(R24(a) to R24(d)). -/
theorem exchange_empty {s : State} (hinv : Inv s) (hsent : s.sstate ≠ .sent) (hdrains : isAwaiting s.sstate = false) :
    s.rxWin = [] ∧ s.asm = [] ∧ s.txBuf = [] ∧ s.txPos = 0 ∧ s.cancelPend = false := by
  refine ⟨?window, ?reassembly, ?frame, hinv.position_zero hsent, ?noCancel⟩
  case window =>
    by_contra hwin
    exact Bool.false_ne_true (hdrains.symm.trans (hinv.window_awaiting hwin))
  case reassembly =>
    by_contra hasm
    rw [hinv.asm_awaiting_more hasm] at hdrains
    cases hdrains
  case frame =>
    by_contra hframe
    exact hsent (hinv.frame_sent hframe)
  case noCancel =>
    by_contra hcancel
    exact hsent (hinv.cancel_sent (Bool.eq_true_of_not_eq_false hcancel)).1

/-- In an ended state an event does one of three things: the outcome is taken, the block is reset, or a received
byte is dropped (R211). -/
theorem effect_of_isEnded {s t : State} {e : Event} (heffect : Effect s e t) (hended : isEnded s.sstate = true) :
    e = .takeResult ∨ e = .reset ∨ t = s := by
  have hdrains := isAwaiting_eq_false_of_isEnded hended
  cases heffect with
  | taken => exact .inl rfl
  | reset => exact .inr (.inl rfl)
  | dropped => exact .inr (.inr rfl)
  | issued _ hs | tooLarge _ hs | configured _ hs | cancelHeld hs | txMore _ hs | txLast _ hs | txError hs
  | acked _ _ _ _ hs | firstData _ _ _ _ hs | moreData _ _ _ _ hs | firstEnd _ _ _ _ hs | lastEnd _ _ _ _ hs =>
    simp [hs, isEnded] at hended
  | cancelled hs | rxError hs | timeout hs | kept _ hs | fatal _ _ hs | unexpected _ _ _ _ _ hs =>
    simp [hs] at hdrains

/-- With no event due the environment's endless part stays as it is (R188; log 1). -/
theorem onward_next_of_due_eq_none {o : Onward} (h : o.due = none) : o.next = o := by
  cases o with
  | quiet => rfl
  | again cycle =>
    cases cycle with
    | nil => rfl
    | cons e es => cases h
  | free position => cases h

/-- With no event due there is none to take off the schedule (R161, R188). -/
theorem advance_of_dueEvent_eq_none {s : State} (h : dueEvent s = none) : advance s = s := by
  cases hevents : s.events with
  | nil =>
    have hdue : s.onward.due = none := by simpa [dueEvent, hevents] using h
    simp only [advance, hevents, onward_next_of_due_eq_none hdue]
    rw [← hevents]
  | cons e es => cases (dueEvent_cons hevents).symm.trans h

/-- Settles O41: these are the registers `raise` writes, with these values. -/
theorem failureEntryDiscardsTheExchange : Obligations.FailureEntryDiscardsTheExchange :=
  fun _ _ => rfl

/-- Settles O47: the invariant gives an ended state its outcome and leaves it nothing of the exchange, so that what
`takeOutcome` clears is all there is. -/
theorem takeResultReturnsToCleanIdle : Obligations.TakeResultReturnsToCleanIdle := by
  intro s es hinv hevents hs
  have hended : isEnded s.sstate = true := isEnded_iff.mpr hs
  have hdrains := isAwaiting_eq_false_of_isEnded hended
  have hsent : s.sstate ≠ .sent := fun h => by simp [h, isEnded] at hended
  obtain ⟨r, hresult⟩ := exists_result_of_isEnded hinv hended
  obtain ⟨hwindow, hasm, hframe, hpos, hcancel⟩ := exchange_empty hinv hsent hdrains
  have hstep : step s = .next (takeOutcome { s with events := es }) := (step_cons hevents).trans (if_pos hended)
  refine ⟨r, _, hresult, hstep, ⟨rfl, hwindow, hasm, hframe, hpos, hcancel, rfl⟩, ?_⟩
  simp only [takeOutcome, hresult, Option.toList_some]

/-- Settles O54: in `Complete` or `Failed` the due event takes the outcome, resets the block or is a dropped byte,
which leaves what `advance` leaves. -/
theorem outcomeStaysUntilTakenOrReset : Obligations.OutcomeStaysUntilTakenOrReset := by
  intro s t hstep hs
  have hended : isEnded (advance s).sstate = true := (advance_sstate s).symm ▸ isEnded_iff.mpr hs
  obtain ⟨hidle, rfl⟩ | ⟨e, hdue, heffect⟩ := step_cases hstep
  · exact .inr (.inr ((advance_of_dueEvent_eq_none hidle).symm.trans (advance_eq _)))
  · obtain rfl | rfl | rfl := effect_of_isEnded heffect hended
    · exact .inl hdue
    · exact .inr (.inl hdue)
    · exact .inr (.inr (advance_eq s))

end Sys2Proof
end

section
/-! PROOFS. The serial accumulator (spec 40_checksum.md R91, R92). -/

namespace Sys2Proof

/-- The accumulator adds the bytes' arithmetic sum to where it starts, wrapping at 16 bits (R92). -/
theorem foldl_accumulate (s : List Byte) (acc : Word16) :
    s.foldl accumulate acc = acc + BitVec.ofNat 16 (byteSum s) := by
  induction s generalizing acc with
  | nil => simp [byteSum]
  | cons b s ih =>
    have hbyte : b.setWidth 16 = BitVec.ofNat 16 b.toNat := (BitVec.ofNat_toNat 16 b).symm
    rw [List.foldl_cons, ih, accumulate, hbyte, BitVec.add_assoc, ← BitVec.ofNat_add]
    rfl

/-- The serial accumulator ends at the arithmetic sum modulo 65536 (R91, R92). -/
theorem serialSum_eq_ofNat_byteSum (s : List Byte) : serialSum s = BitVec.ofNat 16 (byteSum s) := by
  rw [serialSum, foldl_accumulate]
  exact BitVec.zero_add _

/-- The arithmetic sum does not depend on the order of the bytes (R91). -/
theorem byteSum_perm {s t : List Byte} (h : s.Perm t) : byteSum s = byteSum t :=
  (h.map BitVec.toNat).sum_eq

/-- Settles O2: the accumulator depends on the arithmetic sum alone, which no reordering changes and which is
the one the checksum wraps. -/
theorem serialAccumulatorInAnyOrderIsChecksum : Obligations.SerialAccumulatorInAnyOrderIsChecksum := by
  intro pid len payload order hperm
  rw [serialSum_eq_ofNat_byteSum, byteSum_perm hperm, ← word16Bytes_eq_spellBE, checksum]
  congr 1
  simp [byteSum, word16Bytes, Nat.add_assoc]

end Sys2Proof
end

section
/-! PROOFS. The window decoder by the shape of the window (spec 41_packet_codec.md R103 to R114). -/

namespace Sys2Proof

/-- The windows the clauses of R103 tell apart, by the part of a frame they stop in. -/
inductive WindowShape : List Byte → Prop
  | empty : WindowShape []
  | firstMagic : WindowShape [Config.magic0]
  | wrongFirst (b : Byte) (v : List Byte) (wrong : b ≠ Config.magic0) : WindowShape (b :: v)
  | wrongSecond (b : Byte) (v : List Byte) (wrong : b ≠ Config.magic1) : WindowShape (Config.magic0 :: b :: v)
  | shortHeader (v : List Byte) (short : v.length < 7) : WindowShape (Config.magic0 :: Config.magic1 :: v)
  | badLength (a0 a1 a2 a3 pid l1 l0 : Byte) (body : List Byte) (small : l1.toNat * 256 + l0.toNat < 2) :
      WindowShape (Config.magic0 :: Config.magic1 :: a0 :: a1 :: a2 :: a3 :: pid :: l1 :: l0 :: body)
  | shortBody (a0 a1 a2 a3 pid l1 l0 : Byte) (body : List Byte) (large : 2 ≤ l1.toNat * 256 + l0.toNat)
      (short : body.length < l1.toNat * 256 + l0.toNat) :
      WindowShape (Config.magic0 :: Config.magic1 :: a0 :: a1 :: a2 :: a3 :: pid :: l1 :: l0 :: body)
  | whole (a0 a1 a2 a3 pid l1 l0 : Byte) (payload : List Byte) (c1 c0 : Byte) (more : List Byte)
      (len : l1.toNat * 256 + l0.toNat = payload.length + 2) :
      WindowShape (Config.magic0 :: Config.magic1 :: a0 :: a1 :: a2 :: a3 :: pid :: l1 :: l0 ::
        (payload ++ [c1, c0] ++ more))

/-- A body that is not shorter than its length field is a payload, two bytes of checksum and what follows. -/
theorem exists_whole_body {body : List Byte} {L : Nat} (h2 : 2 ≤ L) (hL : L ≤ body.length) :
    ∃ payload c1 c0 more, body = payload ++ [c1, c0] ++ more ∧ L = payload.length + 2 := by
  obtain ⟨n, rfl⟩ := Nat.exists_eq_add_of_le' h2
  match hrest : body.drop n, List.length_drop (l := body) (i := n) with
  | c1 :: c0 :: more, _ =>
    refine ⟨body.take n, c1, c0, more, ?_, ?_⟩
    · rw [List.append_assoc, List.cons_append, List.cons_append, List.nil_append, ← hrest, List.take_append_drop]
    · rw [List.length_take]; omega
  | [_], hlen => simp only [List.length_singleton] at hlen; omega
  | [], hlen => simp only [List.length_nil] at hlen; omega

/-- Every window has one of these shapes. -/
theorem windowShape (w : List Byte) : WindowShape w := by
  match w with
  | [] => exact .empty
  | [b] =>
    by_cases hb : b = Config.magic0
    · exact hb ▸ .firstMagic
    · exact .wrongFirst b [] hb
  | m0 :: m1 :: v =>
    by_cases h0 : m0 = Config.magic0
    case neg => exact .wrongFirst m0 _ h0
    by_cases h1 : m1 = Config.magic1
    case neg => exact h0 ▸ .wrongSecond m1 v h1
    subst h0 h1
    by_cases hv : v.length < 7
    · exact .shortHeader v hv
    match v, Nat.le_of_not_lt hv with
    | a0 :: a1 :: a2 :: a3 :: pid :: l1 :: l0 :: body, _ =>
      by_cases h2 : l1.toNat * 256 + l0.toNat < 2
      · exact .badLength a0 a1 a2 a3 pid l1 l0 body h2
      by_cases hshort : body.length < l1.toNat * 256 + l0.toNat
      · exact .shortBody a0 a1 a2 a3 pid l1 l0 body (by omega) hshort
      obtain ⟨payload, c1, c0, more, rfl, hlen⟩ := exists_whole_body (by omega) (Nat.le_of_not_lt hshort)
      exact .whole a0 a1 a2 a3 pid l1 l0 payload c1 c0 more hlen

/-- A wrong first byte is a bad magic at once (R104). -/
theorem decodeFrame_wrongFirst {b : Byte} (h : b ≠ Config.magic0) (v : List Byte) :
    decodeFrame (b :: v) = .badMagic := by
  simp [decodeFrame, byteAt, h]

/-- So is a wrong second byte (R104). -/
theorem decodeFrame_wrongSecond {b : Byte} (h : b ≠ Config.magic1) (v : List Byte) :
    decodeFrame (Config.magic0 :: b :: v) = .badMagic := by
  simp [decodeFrame, byteAt, h]

/-- A header that is short and right so far is incomplete (R105). -/
theorem decodeFrame_shortHeader {v : List Byte} (h : v.length < 7) :
    decodeFrame (Config.magic0 :: Config.magic1 :: v) = .incomplete := by
  have hlen : v.length + 1 + 1 < 9 := by omega
  simp [decodeFrame, byteAt, Config.hdrLen, hlen]

section Header
variable {a0 a1 a2 a3 pid l1 l0 : Byte}

/-- A length field below 2 is a bad length (R106). -/
theorem decodeFrame_badLength (h : l1.toNat * 256 + l0.toNat < 2) (body : List Byte) :
    decodeFrame (Config.magic0 :: Config.magic1 :: a0 :: a1 :: a2 :: a3 :: pid :: l1 :: l0 :: body) = .badLength :=
  (decodeFrame_header rfl).trans (if_pos h)

/-- A body shorter than the length field is incomplete (R107). -/
theorem decodeFrame_shortBody {body : List Byte} (h2 : 2 ≤ l1.toNat * 256 + l0.toNat)
    (hshort : body.length < l1.toNat * 256 + l0.toNat) :
    decodeFrame (Config.magic0 :: Config.magic1 :: a0 :: a1 :: a2 :: a3 :: pid :: l1 :: l0 :: body) = .incomplete :=
  (decodeFrame_header rfl).trans ((if_neg (Nat.not_lt.mpr h2)).trans (if_pos hshort))

end Header

/-- Settles O10: one shape of window for each clause. -/
theorem magicHeaderAndLengthVerdicts : Obligations.MagicHeaderAndLengthVerdicts :=
  ⟨fun _ w hb => decodeFrame_wrongFirst hb w, fun _ w hb => decodeFrame_wrongSecond hb w,
    fun _ hw => decodeFrame_shortHeader hw, rfl, rfl, fun _ _ _ _ _ _ _ body hL => decodeFrame_badLength hL body⟩

/-- Settles O7: a window with a final verdict has a shape that any extension keeps. -/
theorem verdictsOtherThanIncompleteAreFinal : Obligations.VerdictsOtherThanIncompleteAreFinal := by
  intro w more hfinal
  cases windowShape w with
  | empty => exact absurd rfl hfinal
  | firstMagic => exact absurd rfl hfinal
  | shortHeader v hv => exact absurd (decodeFrame_shortHeader hv) hfinal
  | shortBody _ _ _ _ _ _ _ body h2 hshort => exact absurd (decodeFrame_shortBody h2 hshort) hfinal
  | wrongFirst b v hb => rw [decodeFrame_wrongFirst hb, List.cons_append, decodeFrame_wrongFirst hb]
  | wrongSecond b v hb =>
    rw [decodeFrame_wrongSecond hb, List.cons_append, List.cons_append, decodeFrame_wrongSecond hb]
  | badLength a0 a1 a2 a3 pid l1 l0 body hL =>
    simp only [List.cons_append, decodeFrame_badLength hL]
  | whole a0 a1 a2 a3 pid l1 l0 payload c1 c0 rest hL =>
    simp only [List.cons_append, List.append_assoc _ rest more, decodeFrame_whole hL]

/-- Settles O8: an incomplete window is a part of a header, or a header and a body shorter than its 16-bit length
field. -/
theorem incompleteWindowIsShorterThanMaxFrame : Obligations.IncompleteWindowIsShorterThanMaxFrame := by
  intro w hincomplete
  cases windowShape w with
  | empty => decide
  | firstMagic => decide
  | shortHeader v hv => simp only [List.length_cons]; omega
  | shortBody _ _ _ _ _ l1 l0 body _ hshort =>
    have h1 := l1.isLt
    have h0 := l0.isLt
    simp only [List.length_cons]; omega
  | wrongFirst b v hb => rw [decodeFrame_wrongFirst hb] at hincomplete; cases hincomplete
  | wrongSecond b v hb => rw [decodeFrame_wrongSecond hb] at hincomplete; cases hincomplete
  | badLength _ _ _ _ _ _ _ body hL => rw [decodeFrame_badLength hL] at hincomplete; cases hincomplete
  | whole _ _ _ _ _ _ _ payload c1 c0 rest hL =>
    rw [decodeFrame_whole hL] at hincomplete
    split at hincomplete <;> cases hincomplete

/-- Two bytes that read as a 16-bit value are its two bytes (R41). -/
theorem word16Bytes_eq_of_value {v : Word16} {b1 b0 : Byte} (h : b1.toNat * 256 + b0.toNat = v.toNat) :
    word16Bytes v = [b1, b0] := by
  have hread : v.toNat = readBE [b1, b0] := by simp [readBE_cons, ← h]
  rw [word16Bytes_eq_spellBE, hread]
  exact spellBE_readBE [b1, b0]

/-- `Decode` succeeds exactly on the windows that start with a frame, with that frame's fields (R109, R112). -/
theorem decodeFrame_eq_ok_iff {w : List Byte} {a : Address} {pid : Byte} {p : List Byte} {n : Nat} :
    decodeFrame w = .ok a pid p n ↔
      p.length ≤ Config.maxPayload ∧ n = (rawFrame a pid p).length ∧ rawFrame a pid p <+: w := by
  constructor
  · intro hok
    cases windowShape w with
    | empty => cases hok
    | firstMagic => cases hok
    | shortHeader v hv => rw [decodeFrame_shortHeader hv] at hok; cases hok
    | shortBody _ _ _ _ _ _ _ _ h2 hshort => rw [decodeFrame_shortBody h2 hshort] at hok; cases hok
    | wrongFirst b v hb => rw [decodeFrame_wrongFirst hb] at hok; cases hok
    | wrongSecond b v hb => rw [decodeFrame_wrongSecond hb] at hok; cases hok
    | badLength _ _ _ _ _ _ _ _ hL => rw [decodeFrame_badLength hL] at hok; cases hok
    | whole a0 a1 a2 a3 pid' l1 l0 payload c1 c0 more hL =>
      rw [decodeFrame_whole hL] at hok
      split at hok <;> cases hok
      rename_i hsum
      have h1 := l1.isLt
      have h0 := l0.isLt
      have hfits : p.length ≤ Config.maxPayload := by unfold Config.maxPayload; omega
      have hlen : word16Bytes (BitVec.ofNat 16 (p.length + 2)) = [l1, l0] :=
        word16Bytes_eq_of_value (by rw [toNat_lengthField_word hfits, hL])
      refine ⟨hfits, (length_rawFrame _ _ _).symm, more, ?_⟩
      simp [rawFrame, addressBytes_bytesAddress, hlen, word16Bytes_eq_of_value hsum]
  · rintro ⟨hfits, rfl, more, rfl⟩
    exact decodeFrame_rawFrame_append hfits a pid more

/-- Settles O5: a success is a frame at the front of the window, and `consumed` is its length. -/
theorem decodedBytesAreTheEncoding : Obligations.DecodedBytesAreTheEncoding := by
  intro w address pid payload consumed hok
  obtain ⟨hfits, rfl, hprefix⟩ := decodeFrame_eq_ok_iff.mp hok
  refine ⟨by rw [length_rawFrame, Nat.add_comm], hprefix.length_le, ?_⟩
  rw [← List.prefix_iff_eq_take.mp hprefix]
  exact encodeFrame_eq_ok_iff.mpr ⟨hfits, rfl⟩

/-- Every part of a frame that stops before its end is incomplete (R113): a final verdict would be the whole
frame's, whose success consumes more bytes than the part has. -/
theorem decodeFrame_take_rawFrame {p : List Byte} (hfits : p.length ≤ Config.maxPayload) (a : Address) (pid : Byte)
    {k : Nat} (hk : k < (rawFrame a pid p).length) : decodeFrame ((rawFrame a pid p).take k) = .incomplete := by
  by_contra hfinal
  have hsame := verdictsOtherThanIncompleteAreFinal _ ((rawFrame a pid p).drop k) hfinal
  have hwhole : decodeFrame (rawFrame a pid p) = .ok a pid p (rawFrame a pid p).length := by
    simpa using decodeFrame_rawFrame_append hfits a pid []
  rw [List.take_append_drop, hwhole] at hsame
  obtain ⟨-, -, hprefix⟩ := decodeFrame_eq_ok_iff.mp hsame.symm
  have hle := hprefix.length_le
  rw [List.length_take] at hle
  omega

/-- Settles O6: an encoded packet is a frame, and what stops before a frame's end is incomplete. -/
theorem strictPrefixesAreIncomplete : Obligations.StrictPrefixesAreIncomplete := by
  intro address pid payload frame k hencode hk
  obtain ⟨hfits, rfl⟩ := encodeFrame_eq_ok_iff.mp hencode
  exact decodeFrame_take_rawFrame hfits address pid hk

end Sys2Proof
end

section
/-! PROOFS. One changed byte of a frame (spec 41_packet_codec.md R114, 40_checksum.md R95). -/

namespace Sys2Proof

open Machine

/-- A byte with one bit flipped is another byte (R114). -/
theorem flipBit_ne {k : Nat} (hk : k < 8) (b : Byte) : flipBit b k ≠ b := by
  intro h
  have hzero : BitVec.ofNat 8 (2 ^ k) = 0 := (BitVec.xor_right_inj b).mp (h.trans BitVec.xor_zero.symm)
  have hpow : 2 ^ k < 2 ^ 8 := Nat.pow_lt_pow_right (by decide) hk
  have hnat := congrArg BitVec.toNat hzero
  rw [BitVec.toNat_ofNat, Nat.mod_eq_of_lt hpow] at hnat
  exact Nat.ne_of_gt (Nat.two_pow_pos k) hnat

/-- Two different bytes are different numbers. -/
theorem toNat_ne_of_ne {b c : Byte} (h : b ≠ c) : b.toNat ≠ c.toNat :=
  fun hnat => h (BitVec.eq_of_toNat_eq hnat)

/-- Replacing one byte moves the sum by the difference of the two bytes (R95). -/
theorem byteSum_set {p : List Byte} {i : Nat} (hi : i < p.length) (b : Byte) :
    byteSum (p.set i b) + (byteAt p i).toNat = byteSum p + b.toNat := by
  induction p generalizing i with
  | nil => cases hi
  | cons x p ih =>
    cases i with
    | zero => simp [byteSum, byteAt]; omega
    | succ i =>
      have := ih (Nat.lt_of_succ_lt_succ hi)
      simp only [byteSum, byteAt, List.set_cons_succ, List.map_cons, List.sum_cons, List.getD_cons_succ] at this ⊢
      omega

/-- `Decode` on a window that is exactly one frame long, with the sum written out (R90, R108, R109). -/
theorem decodeFrame_exact {a0 a1 a2 a3 pid l1 l0 c1 c0 : Byte} {p : List Byte}
    (hL : l1.toNat * 256 + l0.toNat = p.length + 2) :
    decodeFrame (Config.magic0 :: Config.magic1 :: a0 :: a1 :: a2 :: a3 :: pid :: l1 :: l0 :: (p ++ [c1, c0])) =
      if c1.toNat * 256 + c0.toNat = (pid.toNat + l1.toNat + l0.toNat + byteSum p) % 65536
      then .ok (bytesAddress [a0, a1, a2, a3]) pid p (p.length + 11)
      else .checksumError := by
  rw [← toNat_checksum_received, hL]
  simpa using decodeFrame_whole (more := []) hL

/-- The bytes of a frame by name, its length bytes and checksum bytes as the numbers they spell (R60, R62, R90). -/
theorem exists_rawFrame_fields {p : List Byte} (hfits : p.length ≤ Config.maxPayload) (a : Address) (pid : Byte) :
    ∃ a0 a1 a2 a3 l1 l0 c1 c0 : Byte,
      rawFrame a pid p =
        Config.magic0 :: Config.magic1 :: a0 :: a1 :: a2 :: a3 :: pid :: l1 :: l0 :: (p ++ [c1, c0]) ∧
      addressBytes a = [a0, a1, a2, a3] ∧ l1.toNat * 256 + l0.toNat = p.length + 2 ∧
      c1.toNat * 256 + c0.toNat = (pid.toNat + l1.toNat + l0.toNat + byteSum p) % 65536 := by
  refine ⟨_, _, _, _, _, _, _, _, rawFrame_cons a pid p, rfl, frame_length_value hfits, ?_⟩
  rw [← toNat_checksum_received, frame_length_value hfits]
  exact word16Bytes_value _

section Replaced
variable {a : Address} {pid : Byte} {p : List Byte} {offset : Nat} {b : Byte}

/-- A wrong byte in the magic is a bad magic (R114). -/
theorem decodeFrame_set_magic (hoffset : offset < 2) (hb : b ≠ byteAt (rawFrame a pid p) offset) :
    decodeFrame ((rawFrame a pid p).set offset b) = .badMagic := by
  rw [rawFrame_cons] at hb ⊢
  match offset, hoffset with
  | 0, _ => exact decodeFrame_wrongFirst hb _
  | 1, _ => exact decodeFrame_wrongSecond hb _

/-- Other address bytes carry another address (R42). -/
theorem bytesAddress_ne {b0 b1 b2 b3 : Byte} (h : [b0, b1, b2, b3] ≠ addressBytes a) :
    bytesAddress [b0, b1, b2, b3] ≠ a := by
  rintro rfl
  exact h (addressBytes_bytesAddress b0 b1 b2 b3).symm

/-- Another byte in the address leaves a whole packet with another address, which no sum covers (R114). -/
theorem decodeFrame_set_address (hfits : p.length ≤ Config.maxPayload) (hlow : 2 ≤ offset) (hhigh : offset < 6)
    (hb : b ≠ byteAt (rawFrame a pid p) offset) :
    ∃ other, other ≠ a ∧
      decodeFrame ((rawFrame a pid p).set offset b) = .ok other pid p (rawFrame a pid p).length := by
  rw [length_rawFrame]
  obtain ⟨a0, a1, a2, a3, l1, l0, c1, c0, hframe, haddress, hL, hsum⟩ := exists_rawFrame_fields hfits a pid
  rw [hframe] at hb ⊢
  have hok (b0 b1 b2 b3 : Byte) :=
    (decodeFrame_exact (a0 := b0) (a1 := b1) (a2 := b2) (a3 := b3) hL).trans (if_pos hsum)
  match offset, hlow, hhigh with
  | 2, _, _ => exact ⟨_, bytesAddress_ne (fun h => hb (by simpa [haddress, byteAt] using h)), hok b a1 a2 a3⟩
  | 3, _, _ => exact ⟨_, bytesAddress_ne (fun h => hb (by simpa [haddress, byteAt] using h)), hok a0 b a2 a3⟩
  | 4, _, _ => exact ⟨_, bytesAddress_ne (fun h => hb (by simpa [haddress, byteAt] using h)), hok a0 a1 b a3⟩
  | 5, _, _ => exact ⟨_, bytesAddress_ne (fun h => hb (by simpa [haddress, byteAt] using h)), hok a0 a1 a2 b⟩

/-- Another identifier moves the sum (R95, R114). -/
theorem decodeFrame_set_pid (hfits : p.length ≤ Config.maxPayload) (hb : b ≠ pid) :
    decodeFrame ((rawFrame a pid p).set 6 b) = .checksumError := by
  obtain ⟨a0, a1, a2, a3, l1, l0, c1, c0, hframe, -, hL, hsum⟩ := exists_rawFrame_fields hfits a pid
  have hne := toNat_ne_of_ne hb
  have hlt := b.isLt
  have hlt' := pid.isLt
  rw [hframe]
  exact (decodeFrame_exact hL).trans (if_neg (by omega))

/-- Another byte in the payload moves the sum, and one in the checksum the value it is compared with (R95, R114). -/
theorem decodeFrame_set_body (hfits : p.length ≤ Config.maxPayload) (hlow : 9 ≤ offset)
    (hhigh : offset < (rawFrame a pid p).length) (hb : b ≠ byteAt (rawFrame a pid p) offset) :
    decodeFrame ((rawFrame a pid p).set offset b) = .checksumError := by
  rw [length_rawFrame] at hhigh
  obtain ⟨a0, a1, a2, a3, l1, l0, c1, c0, hframe, -, hL, hsum⟩ := exists_rawFrame_fields hfits a pid
  obtain ⟨i, rfl⟩ := Nat.exists_eq_add_of_le' hlow
  rw [hframe] at hb ⊢
  replace hb : b ≠ byteAt (p ++ [c1, c0]) i := hb
  simp only [List.set_cons_succ]
  have hne := toNat_ne_of_ne hb
  have hlt := b.isLt
  by_cases hp : i < p.length
  · have hold : byteAt (p ++ [c1, c0]) i = byteAt p i := List.getD_append _ _ _ _ hp
    have hmoved := byteSum_set hp b
    have hlt' := (byteAt p i).isLt
    rw [hold] at hne
    have hL' : l1.toNat * 256 + l0.toNat = (p.set i b).length + 2 := by rw [List.length_set, hL]
    rw [List.set_append_left _ _ hp, decodeFrame_exact hL', if_neg (by omega)]
  · obtain ⟨j, rfl⟩ := Nat.exists_eq_add_of_le (Nat.le_of_not_lt hp)
    rw [byteAt, List.getD_append_right _ _ _ _ (Nat.le_add_right _ _), Nat.add_sub_cancel_left] at hne
    rw [List.set_append_right _ _ (Nat.le_add_right _ _), Nat.add_sub_cancel_left]
    match j, (by omega : j < 2) with
    | 0, _ =>
      replace hne : b.toNat ≠ c1.toNat := hne
      exact (decodeFrame_exact hL).trans (if_neg (by have := c0.isLt; omega))
    | 1, _ =>
      replace hne : b.toNat ≠ c0.toNat := hne
      exact (decodeFrame_exact hL).trans (if_neg (by have := c0.isLt; omega))

end Replaced

/-- A frame with another length field: too long for the body, below 2, or a frame of a shorter payload whose sum
agrees only by coincidence (R114). -/
theorem decodeFrame_otherLength {a0 a1 a2 a3 pid l1 l0 c1 c0 : Byte} {p : List Byte}
    (hother : l1.toNat * 256 + l0.toNat ≠ p.length + 2) :
    let w := Config.magic0 :: Config.magic1 :: a0 :: a1 :: a2 :: a3 :: pid :: l1 :: l0 :: (p ++ [c1, c0])
    (p.length + 2 < lengthField w → decodeFrame w = .incomplete) ∧
    (lengthField w < 2 → decodeFrame w = .badLength) ∧
    (2 ≤ lengthField w → lengthField w < p.length + 2 → decodeFrame w = .checksumError ∨
      decodeFrame w = .ok (bytesAddress [a0, a1, a2, a3]) pid (p.take (lengthField w - 2)) (9 + lengthField w)) ∧
    lengthField w ≠ p.length + 2 := by
  intro w
  have hfield : lengthField w = l1.toNat * 256 + l0.toNat := rfl
  rw [hfield]
  refine ⟨fun hlong => ?_, fun hsmall => decodeFrame_badLength hsmall _, fun h2 hshort => ?_, hother⟩
  · exact decodeFrame_shortBody (by omega) (by simpa using hlong)
  · rw [decodeFrame_header rfl, if_neg (Nat.not_lt.mpr h2), if_neg (by simpa using hshort.le),
      List.take_append_of_le_length (by omega)]
    exact ite_eq_or_eq _ _ _

/-- The length clause of R114 for a replaced length byte. -/
theorem decodeFrame_set_length {a : Address} {pid : Byte} {p : List Byte} {offset : Nat} {b : Byte}
    (hfits : p.length ≤ Config.maxPayload) (hoffset : offset = 7 ∨ offset = 8)
    (hb : b ≠ byteAt (rawFrame a pid p) offset) :
    let w := (rawFrame a pid p).set offset b
    (p.length + 2 < lengthField w → decodeFrame w = .incomplete) ∧
    (lengthField w < 2 → decodeFrame w = .badLength) ∧
    (2 ≤ lengthField w → lengthField w < p.length + 2 → decodeFrame w = .checksumError ∨
      decodeFrame w = .ok a pid (p.take (lengthField w - 2)) (9 + lengthField w)) ∧
    lengthField w ≠ p.length + 2 := by
  obtain ⟨a0, a1, a2, a3, l1, l0, c1, c0, hframe, haddress, hL, -⟩ := exists_rawFrame_fields hfits a pid
  have hlt := b.isLt
  have hlt0 := l0.isLt
  have hne := toNat_ne_of_ne hb
  rw [hframe] at hne ⊢
  rw [← bytesAddress_addressBytes a, haddress]
  obtain rfl | rfl := hoffset
  · replace hne : b.toNat ≠ l1.toNat := hne
    exact decodeFrame_otherLength (by omega)
  · replace hne : b.toNat ≠ l0.toNat := hne
    exact decodeFrame_otherLength (by omega)

/-- Settles O11: a flipped bit replaces one byte of the frame by another, so each field's clause is that of a
replaced byte. -/
theorem oneFlippedBitByField : Obligations.OneFlippedBitByField := by
  intro address pid payload frame offset k hencode hoffset hk
  obtain ⟨hfits, rfl⟩ := encodeFrame_eq_ok_iff.mp hencode
  have hb := flipBit_ne hk (byteAt (rawFrame address pid payload) offset)
  refine ⟨fun hmagic => decodeFrame_set_magic hmagic hb,
    fun hlow hhigh => decodeFrame_set_address hfits hlow hhigh hb, ?_,
    fun hlength => decodeFrame_set_length hfits hlength hb⟩
  rintro (rfl | hbody)
  · rw [rawFrame_cons] at hb
    exact decodeFrame_set_pid hfits hb
  · exact decodeFrame_set_body hfits hbody hoffset hb

end Sys2Proof
end

section
/-! PROOFS. The encoding of the instructions (spec 30_encoding.md, 42_command_encoder.md section 1). -/

namespace Sys2Proof

open Machine

/-- The instruction of a command is encoded as the command's payload (R65). -/
theorem encode_of_command {c : Command} {i : Instr} (h : instrCommand i = some c) (tab : Config.CmdTab) :
    encode tab i = (.command, cmdEncode tab c) := by
  cases i <;> cases h <;> rfl

/-- The instruction of a command is well formed when the command is typed (R120). -/
theorem wellFormed_of_command {c : Command} {i : Instr} (h : instrCommand i = some c) (tab : Config.CmdTab) :
    wellFormed tab i = commandTyped tab c := by
  cases i <;> cases h <;> rfl

/-- The four identifiers with a role, each with its instruction (R63). -/
theorem packetInstr_cases {a : Address} {pid : Byte} {p : List Byte} {i : Instr} (h : packetInstr a pid p = some i) :
    (pid = 0x01 ∧ i = .cmd a p) ∨ (pid = 0x02 ∧ i = .data a p) ∨ (pid = 0x07 ∧ i = .ack a p) ∨
    (pid = 0x08 ∧ i = .endData a p) := by
  unfold packetInstr at h
  split_ifs at h <;> cases h <;> simp [*]

/-- A packet's instruction is encoded as its frame (R63). -/
theorem encode_of_packet {a : Address} {pid : Byte} {p : List Byte} {i : Instr} (h : packetInstr a pid p = some i)
    (tab : Config.CmdTab) : encode tab i = (.wire, rawFrame a pid p) := by
  obtain ⟨rfl, rfl⟩ | ⟨rfl, rfl⟩ | ⟨rfl, rfl⟩ | ⟨rfl, rfl⟩ := packetInstr_cases h <;> rfl

/-- A packet's instruction is well formed when the payload fits (R62, R101). -/
theorem wellFormed_of_packet {a : Address} {pid : Byte} {p : List Byte} {i : Instr}
    (h : packetInstr a pid p = some i) (tab : Config.CmdTab) :
    wellFormed tab i = true ↔ p.length ≤ Config.maxPayload := by
  obtain ⟨rfl, rfl⟩ | ⟨rfl, rfl⟩ | ⟨rfl, rfl⟩ | ⟨rfl, rfl⟩ := packetInstr_cases h <;> exact decide_eq_true_iff

/-- The row found for a code has that code and is the row of the identity found with it (R77). -/
theorem row_of_findCommand {tab : Config.CmdTab} {code : Byte} {id : CmdId} {row : Config.CmdRow}
    (h : findCommand tab code = some (id, row)) : row.icode = code ∧ cmdRow tab id = some row :=
  ⟨by simpa using List.find?_some h, mem_cmdRows.mp (List.mem_of_find?_eq_some h)⟩

/-- With distinct codes, the row of an identity is the one found for its code (R73, R77). -/
theorem findCommand_icode {tab : Config.CmdTab} (hdistinct : distinctCodes tab) {id : CmdId} {row : Config.CmdRow}
    (hrow : cmdRow tab id = some row) : findCommand tab row.icode = some (id, row) := by
  have hmem : (id, row) ∈ cmdRows tab := mem_cmdRows.mpr hrow
  have hsome : (findCommand tab row.icode).isSome := List.find?_isSome.mpr ⟨_, hmem, beq_self_eq_true _⟩
  obtain ⟨⟨id', row'⟩, hfound⟩ := Option.isSome_iff_exists.mp hsome
  have hcode := (row_of_findCommand hfound).1
  rw [hfound, List.inj_on_of_nodup_map hdistinct (List.mem_of_find?_eq_some hfound) hmem hcode]

/-- A command is decoded by the row found for the first byte and the parameters read behind it (R68, R77). -/
theorem decodeCommand_ok_iff {tab : Config.CmdTab} {bytes : List Byte} {c : Command} {more : List Byte} :
    decodeCommand tab bytes = .ok (c, more) ↔ ∃ code rest row, bytes = code :: rest ∧
      findCommand tab code = some (c.id, row) ∧ readArgs (rowWidths row) rest = some (c.args, more) := by
  constructor
  · intro h
    unfold decodeCommand at h
    split at h
    case h_1 => cases h
    case h_2 code rest =>
    split at h
    case h_1 => cases h
    case h_2 id row hfound =>
    split at h
    case h_1 => cases h
    case h_2 args left hread =>
    cases h
    exact ⟨code, rest, row, rfl, hfound, hread⟩
  · rintro ⟨code, rest, row, rfl, hfound, hread⟩
    simp only [decodeCommand, hfound, hread]

/-- A typed command is decoded from its payload, whatever follows (R68, R120). -/
theorem decodeCommand_cmdEncode {tab : Config.CmdTab} (hdistinct : distinctCodes tab) {c : Command}
    (htyped : commandTyped tab c = true) (more : List Byte) :
    decodeCommand tab (cmdEncode tab c ++ more) = .ok (c, more) := by
  obtain ⟨row, hrow, hfit⟩ := exists_row htyped
  rw [cmdEncode_row hrow]
  exact decodeCommand_ok_iff.mpr ⟨_, _, row, rfl, findCommand_icode hdistinct hrow, readArgs_spellArgs hfit more⟩

/-- A decoded command is typed, and its payload is what was read (R68, R120). -/
theorem decodeCommand_sound {tab : Config.CmdTab} {bytes : List Byte} {c : Command} {more : List Byte}
    (h : decodeCommand tab bytes = .ok (c, more)) :
    commandTyped tab c = true ∧ cmdEncode tab c ++ more = bytes := by
  obtain ⟨code, rest, row, rfl, hfound, hread⟩ := decodeCommand_ok_iff.mp h
  obtain ⟨rfl, hrow⟩ := row_of_findCommand hfound
  obtain ⟨hfit, rfl⟩ := readArgs_sound hread
  rw [commandTyped_row hrow, cmdEncode_row hrow]
  exact ⟨hfit, rfl⟩

/-- An instruction is decoded from a payload when it issues the command decoded from it. -/
theorem decodePayload_ok_iff {tab : Config.CmdTab} {bytes : List Byte} {i : Instr} {more : List Byte} :
    decodePayload tab bytes = .ok (i, more) ↔
      ∃ c, decodeCommand tab bytes = .ok (c, more) ∧ instrCommand i = some c := by
  constructor
  · intro h
    unfold decodePayload at h
    split at h
    case h_1 => cases h
    case h_2 c left hcommand =>
    split at h <;> cases h
    exact ⟨c, hcommand, commandInstr_iff.mp ‹_›⟩
  · rintro ⟨c, hcommand, hissues⟩
    simp only [decodePayload, hcommand, commandInstr_iff.mpr hissues]

/-- An instruction is decoded from a window when the packet decoded from it has that role. -/
theorem decodeWire_ok_iff {w : List Byte} {i : Instr} {more : List Byte} :
    decodeWire w = .ok (i, more) ↔
      ∃ a pid p n, decodeFrame w = .ok a pid p n ∧ packetInstr a pid p = some i ∧ w.drop n = more := by
  constructor
  · intro h
    unfold decodeWire at h
    split at h
    case h_1 a pid p n hframe =>
      split at h <;> cases h
      exact ⟨a, pid, p, n, hframe, ‹_›, rfl⟩
    all_goals cases h
  · rintro ⟨a, pid, p, n, hframe, hrole, rfl⟩
    simp only [decodeWire, hframe, hrole]

/-- Settles O12: a command's row is the one found for its code, and its parameters read back as spelled; a packet's
frame is decoded whatever follows it. -/
theorem decodeOfEncodeIsTheInstruction : Obligations.DecodeOfEncodeIsTheInstruction := by
  intro tab more hdistinct
  refine ⟨fun i hwell => ?_, fun c htyped => decodeCommand_cmdEncode hdistinct htyped more⟩
  obtain ⟨c, hissues⟩ | ⟨a, pid, p, hrole⟩ := instr_command_or_packet i
  · rw [wellFormed_of_command hissues] at hwell
    rw [encode_of_command hissues]
    exact decodePayload_ok_iff.mpr ⟨c, decodeCommand_cmdEncode hdistinct hwell more, hissues⟩
  · have hfits := (wellFormed_of_packet hrole tab).mp hwell
    rw [encode_of_packet hrole]
    exact decodeWire_ok_iff.mpr
      ⟨a, pid, p, _, decodeFrame_rawFrame_append hfits a pid more, hrole, List.drop_left⟩

/-- Settles O13: what both decoders read from the front is the encoding of what they answer. -/
theorem decodedInstructionIsWellFormed : Obligations.DecodedInstructionIsWellFormed := by
  refine ⟨fun tab port bytes i more h => ?_, fun _ _ _ _ => decodeCommand_sound⟩
  cases port with
  | command =>
    obtain ⟨c, hcommand, hissues⟩ := decodePayload_ok_iff.mp h
    rw [wellFormed_of_command hissues, encode_of_command hissues]
    obtain ⟨htyped, hbytes⟩ := decodeCommand_sound hcommand
    exact ⟨htyped, rfl, hbytes⟩
  | wire =>
    obtain ⟨a, pid, p, n, hframe, hrole, rfl⟩ := decodeWire_ok_iff.mp h
    obtain ⟨hfits, rfl, rest, rfl⟩ := decodeFrame_eq_ok_iff.mp hframe
    rw [wellFormed_of_packet hrole, encode_of_packet hrole]
    exact ⟨hfits, rfl, congrArg _ List.drop_left⟩

/-- Settles O14: the decoder evaluates each of the written-out words. -/
theorem writtenOutWordsDecode : Obligations.WrittenOutWordsDecode :=
  ⟨by decide, by decide, by decide, by decide, by decide⟩

end Sys2Proof
end

section
/-! PROOFS. The issue of a command (spec 44_session_fsm.md section 2). -/

namespace Sys2Proof

open Machine

/-- An accepted command loads its frame (R163). -/
theorem issueCommand_fits {c : Command} {s : State} (hidle : s.sstate = .idle)
    (htyped : commandTyped s.params.cmdTab c = true)
    (hfits : (cmdEncode s.params.cmdTab c).length ≤ Config.maxPayload) :
    issueCommand c s = .next { s with
      curCmd := c
      txBuf := rawFrame s.addr 0x01 (cmdEncode s.params.cmdTab c)
      txPos := 0
      sstate := .sent } := by
  simp [issueCommand, hidle, htyped, encodeFrame_eq_ok_iff.mpr ⟨hfits, rfl⟩]

/-- A command whose payload is too long fails before any byte is written (R164). -/
theorem issueCommand_tooLong {c : Command} {s : State} (hidle : s.sstate = .idle)
    (htyped : commandTyped s.params.cmdTab c = true)
    (hlong : Config.maxPayload < (cmdEncode s.params.cmdTab c).length) :
    issueCommand c s = .next { s with curCmd := c, result := some (.failed .payloadTooLarge), sstate := .failed } := by
  simp [issueCommand, hidle, htyped, encodeFrame, hlong]

/-- Outside `Idle` a command is not accepted (R162). -/
theorem issueCommand_busy {s : State} (h : s.sstate ≠ .idle) (c : Command) : issueCommand c s = .refused .busy :=
  if_pos h

/-- In `Idle` an ill-typed command is not accepted (U19). -/
theorem issueCommand_illTyped {c : Command} {s : State} (hidle : s.sstate = .idle)
    (h : commandTyped s.params.cmdTab c = false) : issueCommand c s = .refused .illTyped := by
  simp [issueCommand, hidle, h]

/-- The step of an `Issue` issues its command (R163). -/
theorem step_issue {s : State} {c : Command} {es : List Event} (hevents : s.events = .issue c :: es) :
    step s = issueCommand c { s with events := es } :=
  (step_cons hevents).trans (eventIssue_eq c _)

/-- Settles O17: the instruction and the step of `Issue` both issue the command, which is accepted. -/
theorem everyCommandLoadsItsFrame : Obligations.EveryCommandLoadsItsFrame := by
  intro s c hidle htyped hfits
  constructor
  · intro i hissues
    exact (exec_command hissues s).trans (issueCommand_fits hidle htyped hfits)
  · intro es hevents
    exact (step_issue hevents).trans (issueCommand_fits (s := { s with events := es }) hidle htyped hfits)

/-- Settles O22: the instruction and the step of `Issue` both issue the command, whose frame cannot be encoded. -/
theorem oversizeCommandFailsBeforeAnyByte : Obligations.OversizeCommandFailsBeforeAnyByte := by
  intro s c hidle htyped hlong
  constructor
  · intro i hissues
    exact (exec_command hissues s).trans (issueCommand_tooLong hidle htyped hlong)
  · intro es hevents
    exact (step_issue hevents).trans (issueCommand_tooLong (s := { s with events := es }) hidle htyped hlong)

/-- Settles O23: the session state is tested first, then the types; without a row there is nothing to fit. -/
theorem commandRefusedWhenBusyOrIllTyped : Obligations.CommandRefusedWhenBusyOrIllTyped := by
  intro s c
  refine ⟨fun hbusy => ⟨fun i hissues => ?_, fun es hevents => ?_⟩,
    fun hidle hill => ⟨fun i hissues => ?_, fun es hevents => ?_⟩, fun hrow => ?_⟩
  · exact (exec_command hissues s).trans (issueCommand_busy hbusy c)
  · exact (step_issue hevents).trans (issueCommand_busy (s := { s with events := es }) hbusy c)
  · exact (exec_command hissues s).trans (issueCommand_illTyped hidle hill)
  · exact (step_issue hevents).trans (issueCommand_illTyped (s := { s with events := es }) hidle hill)
  · simp only [commandTyped, hrow]

/-- Settles O24: an issued command is accepted or too long, and each writes only the registers its update names. -/
theorem commandsChangeOnlyTheirRegisters : Obligations.CommandsChangeOnlyTheirRegisters := by
  intro s t c h
  have hissued : issueCommand c s = .next t := by
    obtain hevent | ⟨i, hissues, hexec⟩ := h
    · exact (eventIssue_eq c s).symm.trans hevent
    · exact (exec_command hissues s).symm.trans hexec
  obtain ⟨-, -, ⟨-, rfl⟩ | ⟨-, rfl⟩⟩ := issueCommand_next hissued <;> simp

/-- A byte is its own one-byte spelling. -/
@[simp] theorem spellBE_toNat_byte (b : Byte) : spellBE b.toNat 1 = [b] := by
  simpa [readBE_cons] using spellBE_readBE [b]

/-- A 16-bit value is spelled high byte first (R41). -/
@[simp] theorem spellBE_toNat_word16 (v : Word16) :
    spellBE v.toNat 2 = [v.extractLsb' 8 8, v.extractLsb' 0 8] :=
  (word16Bytes_eq_spellBE v).symm

/-- A 32-bit value is spelled most significant byte first (R42). -/
@[simp] theorem spellBE_toNat_word32 (v : BitVec 32) :
    spellBE v.toNat 4 = [v.extractLsb' 24 8, v.extractLsb' 16 8, v.extractLsb' 8 8, v.extractLsb' 0 8] :=
  (addressBytes_eq_spellBE v).symm

/-- The instruction of a command whose row has the widths `ws` loads the frame of the code and the values at those
widths (R120, R163). -/
theorem exec_loads_widths {s : State} {i : Instr} {id : CmdId} {args ws : List Nat} {row : Config.CmdRow}
    (hissues : instrCommand i = some ⟨id, args⟩) (hidle : s.sstate = .idle)
    (hrow : cmdRow s.params.cmdTab id = some row) (hwidths : rowWidths row = ws) (hfit : argsFit ws args = true)
    (hsum : 1 + ws.sum ≤ 65533) :
    exec i s = .next { s with
      curCmd := ⟨id, args⟩
      txBuf := rawFrame s.addr 0x01 (row.icode :: spellArgs ws args)
      txPos := 0
      sstate := .sent } := by
  have hpayload := cmdEncode_widths hrow hwidths args
  have htyped : commandTyped s.params.cmdTab ⟨id, args⟩ = true := by rwa [commandTyped_row hrow, hwidths]
  have hlen : (cmdEncode s.params.cmdTab ⟨id, args⟩).length ≤ 65533 := by
    rw [hpayload, List.length_cons, length_spellArgs hfit, Nat.add_comm]; exact hsum
  rw [← hpayload]
  exact (everyCommandLoadsItsFrame s ⟨id, args⟩ hidle htyped hlen).1 i hissues

/-- Settles O18: the row of `AUTH` has one width, and the password fits it. -/
theorem authLoadsCodeAndPassword : Obligations.AuthLoadsCodeAndPassword := by
  rintro s password hidle ⟨hauth, -⟩
  have hfit : argsFit [4] [password.toNat] = true := by simpa [argsFit] using password.isLt
  simpa [spellArgs] using exec_loads_widths rfl hidle rfl hauth hfit (by decide)

/-- Settles O19: the three rows have no parameter to spell. -/
theorem statusCaptureEnrollLoadTheCode : Obligations.StatusCaptureEnrollLoadTheCode := by
  rintro s hidle ⟨-, hstatus, hcapture, -, -, henroll, -⟩
  refine ⟨?_, ?_, ?_⟩
  · simpa [spellArgs] using exec_loads_widths rfl hidle rfl hstatus rfl (by decide)
  · simpa [spellArgs] using exec_loads_widths rfl hidle rfl hcapture rfl (by decide)
  · simpa [spellArgs] using exec_loads_widths rfl hidle rfl henroll rfl (by decide)

/-- Settles O20: a byte and a 16-bit value fit the widths of the two rows. -/
theorem convertStoreLoadTheirParameters : Obligations.ConvertStoreLoadTheirParameters := by
  rintro s buffer index hidle ⟨-, -, -, hconvert, -, -, hstore, -⟩
  have hconvertFit : argsFit [1] [buffer.toNat] = true := by simpa [argsFit] using buffer.isLt
  have hstoreFit : argsFit [1, 2] [buffer.toNat, index.toNat] = true := by
    simpa [argsFit] using ⟨buffer.isLt, index.isLt⟩
  constructor
  · simpa [spellArgs] using exec_loads_widths rfl hidle rfl hconvert hconvertFit (by decide)
  · simpa [spellArgs] using exec_loads_widths rfl hidle rfl hstore hstoreFit (by decide)

/-- Settles O21: a byte and two 16-bit values fit the widths of the two rows. -/
theorem searchDeleteLoadTheirParameters : Obligations.SearchDeleteLoadTheirParameters := by
  rintro s buffer first second hidle ⟨-, -, -, -, hsearch, -, -, hdelete⟩
  have hsearchFit : argsFit [1, 2, 2] [buffer.toNat, first.toNat, second.toNat] = true := by
    simpa [argsFit] using ⟨buffer.isLt, first.isLt, second.isLt⟩
  have hdeleteFit : argsFit [2, 2] [first.toNat, second.toNat] = true := by
    simpa [argsFit] using ⟨first.isLt, second.isLt⟩
  constructor
  · simpa [spellArgs] using exec_loads_widths rfl hidle rfl hsearch hsearchFit (by decide)
  · simpa [spellArgs] using exec_loads_widths rfl hidle rfl hdelete hdeleteFit (by decide)

end Sys2Proof
end

section
/-! PROOFS. The response decoder and its field view (spec 43_response_decoder.md). -/

namespace Sys2Proof

open Machine

/-- An acknowledgement with a nonzero code is a device error with the code's category (R143, R144). -/
theorem respDecode_deviceError (p : Config.Params) (c : CmdId) {conf : Byte} (h : conf ≠ 0x00) (bytes : List Byte) :
    respDecode p c .ack (conf :: bytes) = .ok (.deviceError conf (errorCategory p.errCat conf)) :=
  if_neg h

/-- An acknowledgement with code 0x00 is a success with the bytes after the code and their view (R142). -/
theorem respDecode_success (p : Config.Params) (c : CmdId) (bytes : List Byte) :
    respDecode p c .ack (0x00 :: bytes) = .ok (.success c bytes (fieldView (p.respLayout.lookup c) bytes)) := rfl

/-- A code without an entry is `Unknown` (R144). -/
theorem errorCategory_unknown {errCat : List (Byte × Config.Category)} {conf : Byte}
    (h : ∀ category, (conf, category) ∉ errCat) : errorCategory errCat conf = .unknown := by
  have hnone : errCat.lookup conf = none := by
    rw [List.lookup_eq_none_iff]
    rintro ⟨code, category⟩ hmem
    exact bne_iff_ne.mpr (fun heq => h category (heq ▸ hmem))
  rw [errorCategory, hnone, Option.getD_none]

/-- Settles O36: the decoder branches on the completion kind, then on whether there is a code, then on the code. -/
theorem responseDecoderFailsOnlyOnEmptyAckAndKeepsRawCodes :
    Obligations.ResponseDecoderFailsOnlyOnEmptyAckAndKeepsRawCodes := by
  constructor
  · intro p c kind payload
    match kind, payload with
    | .xfer, _ => simp [respDecode]
    | .ack, [] => exact iff_of_false (fun h => h .malformedAck rfl) (fun h => h ⟨rfl, rfl⟩)
    | .ack, conf :: bytes =>
      by_cases h : conf = 0x00
      · subst h; rw [respDecode_success]; simp
      · rw [respDecode_deviceError p c h]; simp
  · intro p c conf bytes h
    rw [respDecode_deviceError p c h]
    refine ⟨fun category hentry => ?_, fun hnone => ?_⟩
    · rw [errorCategory, hentry, Option.getD_some]
    · rw [errorCategory_unknown hnone]

/-- The names of a view are the layout's (R147). -/
theorem cutFields_names (layout : List Config.FieldSpec) (bytes : List Byte) :
    (cutFields layout bytes).map Prod.fst = layout.map Config.FieldSpec.name := by
  induction layout generalizing bytes with
  | nil => rfl
  | cons f fs ih => rw [cutFields, List.map_cons, List.map_cons, ih]

/-- The values of a view are those read at the layout's widths, and no byte is left over (R147). -/
theorem readArgs_cutFields {layout : List Config.FieldSpec} {bytes : List Byte}
    (hlen : bytes.length = (layout.map Config.FieldSpec.width).sum) :
    readArgs (layout.map Config.FieldSpec.width) bytes = some ((cutFields layout bytes).map Prod.snd, []) := by
  induction layout generalizing bytes with
  | nil => rw [List.eq_nil_of_length_eq_zero hlen]; rfl
  | cons f fs ih =>
    rw [List.map_cons, List.sum_cons] at hlen
    have hrest := ih (bytes := bytes.drop f.width) (by rw [List.length_drop]; omega)
    rw [List.map_cons, readArgs, if_neg (by omega), hrest]
    rfl

/-- Settles O38: the values are read as a command's arguments are, which fit their widths and spell the bytes
back. -/
theorem fieldsCutTheDataBigEndian : Obligations.FieldsCutTheDataBigEndian := by
  intro layout bytes
  refine ⟨fun hlen => ?_, fun hlen => if_neg hlen, rfl⟩
  obtain ⟨hfit, hspell⟩ := readArgs_sound (readArgs_cutFields hlen)
  rw [List.append_nil] at hspell
  exact ⟨cutFields layout bytes, if_pos hlen, cutFields_names layout bytes, hfit, hspell.symm⟩

end Sys2Proof
end

section
/-! PROOFS. The receipt of a packet (spec 44_session_fsm.md section 3). -/

namespace Sys2Proof

open Machine

/-- A reassembled payload fits where every capacity there is holds it (R179). -/
theorem fitsAsm_eq_true {cap : Option Nat} {n : Nat} (h : ∀ c, cap = some c → n ≤ c) : fitsAsm cap n = true := by
  cases cap with
  | none => rfl
  | some c => exact decide_eq_true (h c rfl)

/-- A reassembled payload over the capacity does not fit (R179). -/
theorem fitsAsm_eq_false {cap : Option Nat} {c n : Nat} (hcap : cap = some c) (h : c < n) :
    fitsAsm cap n = false := by
  subst hcap
  exact decide_eq_false (Nat.not_le.mpr h)

section Receipt
variable {s : State} (a : Address) (p : List Byte)

/-- An acknowledgement as first packet completes the exchange (R172). -/
theorem exec_ack_first (hs : s.sstate = .awaitingFirstPacket) :
    exec (.ack a p) s = .next (complete .ack p (acceptPacket a 0x07 s)) := by
  simp only [exec, execAck, hs]

/-- An acknowledgement while assembling is unexpected (R178). -/
theorem exec_ack_more (hs : s.sstate = .awaitingMore) :
    exec (.ack a p) s = .next (raise .unexpectedPacket (acceptPacket a 0x07 s)) := by
  simp only [exec, execAck, hs, unexpectedPacket]

/-- A command packet is unexpected in both awaiting states (R64, R175, R178). -/
theorem exec_cmd_awaiting (hs : isAwaiting s.sstate = true) :
    exec (.cmd a p) s = .next (raise .unexpectedPacket (acceptPacket a 0x01 s)) := by
  obtain hs | hs := isAwaiting_cases hs <;> simp only [exec, execCmd, hs, unexpectedPacket]

/-- A data packet as first packet starts the reassembly (R174). -/
theorem exec_data_first (hs : s.sstate = .awaitingFirstPacket) :
    exec (.data a p) s = .next (appendChunk p { acceptPacket a 0x02 s with asm := [] }) := by
  simp only [exec, execData, hs]

/-- A further data packet is appended (R176). -/
theorem exec_data_more (hs : s.sstate = .awaitingMore) :
    exec (.data a p) s = .next (appendChunk p (acceptPacket a 0x02 s)) := by
  simp only [exec, execData, hs]

/-- An end-of-data packet as first packet completes the exchange (R173). -/
theorem exec_endData_first (hs : s.sstate = .awaitingFirstPacket) :
    exec (.endData a p) s = .next (complete .xfer p (acceptPacket a 0x08 s)) := by
  simp only [exec, execEndData, hs]

/-- An end-of-data packet while assembling ends the transfer (R177). -/
theorem exec_endData_more (hs : s.sstate = .awaitingMore) :
    exec (.endData a p) s = .next (finishTransfer p (acceptPacket a 0x08 s)) := by
  simp only [exec, execEndData, hs]

end Receipt

/-- Settles O25: the acknowledgement completes the exchange, and its code is 0x00. -/
theorem ackZeroCompletesWithSuccess : Obligations.AckZeroCompletesWithSuccess := by
  intro s address bytes hs
  rw [exec_ack_first address _ hs, complete, respDecode_success]
  rfl

/-- Settles O26: the acknowledgement completes the exchange, and its code is not 0x00. -/
theorem ackNonzeroCompletesWithDeviceError : Obligations.AckNonzeroCompletesWithDeviceError := by
  intro s address conf bytes hs hconf
  rw [exec_ack_first address _ hs, complete, respDecode_deviceError _ _ hconf]
  rfl

/-- Settles O27: completion with an empty acknowledgement raises `MalformedAck`. -/
theorem emptyAckIsMalformed : Obligations.EmptyAckIsMalformed :=
  fun _ address hs => exec_ack_first address [] hs

/-- Settles O28: the packet completes the exchange with its payload and passes no capacity test. -/
theorem firstEndDataCompletesWithItsPayload : Obligations.FirstEndDataCompletesWithItsPayload :=
  fun _ address payload hs => exec_endData_first address payload hs

/-- A data packet that fits as the first one is the reassembly buffer (R174). -/
theorem exec_data_first_fits {s : State} {p : List Byte} (a : Address) (hs : s.sstate = .awaitingFirstPacket)
    (hfits : fitsAsm s.params.asmCap p.length = true) :
    exec (.data a p) s = .next { s with
      rxAddr := a, rxPid := 0x02, rxWin := [], asm := p, sstate := .awaitingMore } := by
  rw [exec_data_first a p hs, appendChunk_fits (by simpa using hfits)]
  rfl

/-- A further data packet that fits is appended to the reassembly buffer (R176). -/
theorem exec_data_more_fits {s : State} {p : List Byte} (a : Address) (hs : s.sstate = .awaitingMore)
    (hfits : fitsAsm s.params.asmCap (s.asm.length + p.length) = true) :
    exec (.data a p) s = .next { s with rxAddr := a, rxPid := 0x02, rxWin := [], asm := s.asm ++ p } := by
  rw [exec_data_more a p hs, appendChunk_fits (s := acceptPacket a 0x02 s) hfits]
  simp only [acceptPacket, hs]

/-- An end-of-data packet that fits completes the transfer with the reassembled bytes and its own (R177). -/
theorem exec_endData_more_fits {s : State} {p : List Byte} (a : Address) (hs : s.sstate = .awaitingMore)
    (hfits : fitsAsm s.params.asmCap (s.asm.length + p.length) = true) :
    exec (.endData a p) s = .next { s with
      rxAddr := a, rxPid := 0x08, rxWin := [], asm := [],
      result := some (.data (s.asm ++ p)), sstate := .complete } := by
  rw [exec_endData_more a p hs, finishTransfer_fits (s := acceptPacket a 0x08 s) hfits]
  rfl

/-- Settles O29: the payload meets the capacity test alone, the buffer being empty before it. -/
theorem firstDataStartsReassembly : Obligations.FirstDataStartsReassembly := by
  refine fun s address payload hs =>
    ⟨fun hfits => exec_data_first_fits address hs (fitsAsm_eq_true hfits), fun cap hcap hover => ?_⟩
  rw [exec_data_first address payload hs, appendChunk_overflow (by simpa using fitsAsm_eq_false hcap hover)]
  rfl

/-- Settles O30: the payload meets the capacity test with what is assembled. -/
theorem furtherDataIsAppended : Obligations.FurtherDataIsAppended := by
  refine fun s address payload hs =>
    ⟨fun hfits => exec_data_more_fits address hs (fitsAsm_eq_true hfits), fun cap hcap hover => ?_⟩
  rw [exec_data_more address payload hs,
    appendChunk_overflow (s := acceptPacket address 0x02 s) (fitsAsm_eq_false hcap hover)]
  rfl

/-- Settles O31: the final payload meets the same capacity test before the exchange completes. -/
theorem finalEndDataCompletesTheTransfer : Obligations.FinalEndDataCompletesTheTransfer := by
  refine fun s address payload hs =>
    ⟨fun hfits => exec_endData_more_fits address hs (fitsAsm_eq_true hfits), fun cap hcap hover => ?_⟩
  rw [exec_endData_more address payload hs,
    finishTransfer_overflow (s := acceptPacket address 0x08 s) (fitsAsm_eq_false hcap hover)]
  rfl

/-- Settles O32: both are packets without a role there. -/
theorem cmdPacketAndLateAckAreUnexpected : Obligations.CmdPacketAndLateAckAreUnexpected :=
  fun _ address payload =>
    ⟨fun hs => exec_cmd_awaiting address payload (isAwaiting_iff.mpr hs), exec_ack_more address payload⟩

/-- Settles O33: a state that is not awaiting drains whole packets and single bytes alike. -/
theorem bytesAreDrainedOutsideTheAwaitingStates : Obligations.BytesAreDrainedOutsideTheAwaitingStates := by
  intro s address payload hfirst hmore
  have hdrains : isAwaiting s.sstate = false :=
    Bool.eq_false_iff.mpr fun h => (isAwaiting_iff.mp h).elim hfirst hmore
  refine ⟨exec_packet_drained (pid := 0x01) rfl hdrains, exec_packet_drained (pid := 0x02) rfl hdrains,
    exec_packet_drained (pid := 0x07) rfl hdrains, exec_packet_drained (pid := 0x08) rfl hdrains,
    fun b es hevents => ?_⟩
  exact (step_cons hevents).trans (if_neg (Bool.eq_false_iff.mp hdrains))

/-- The operations a packet runs in an awaiting state, after it is taken (R172 to R179). -/
inductive PacketOp : (State → State) → Prop
  | unexpected : PacketOp (raise .unexpectedPacket)
  | complete (kind : Completion) (bytes : List Byte) : PacketOp (complete kind bytes)
  | start (payload : List Byte) : PacketOp (fun u => appendChunk payload { u with asm := [] })
  | append (payload : List Byte) : PacketOp (appendChunk payload)
  | finish (payload : List Byte) : PacketOp (finishTransfer payload)

/-- In an awaiting state a packet is taken and runs an operation, the same one whatever its address. -/
theorem exec_packet_awaiting {s : State} {one other : Address} {pid : Byte} {p : List Byte} {i j : Instr}
    (hi : packetInstr one pid p = some i) (hj : packetInstr other pid p = some j) (hs : isAwaiting s.sstate = true) :
    ∃ op, PacketOp op ∧ exec i s = .next (op (acceptPacket one pid s)) ∧
      exec j s = .next (op (acceptPacket other pid s)) := by
  obtain ⟨rfl, rfl⟩ | ⟨rfl, rfl⟩ | ⟨rfl, rfl⟩ | ⟨rfl, rfl⟩ := packetInstr_cases hi <;>
    obtain rfl := Option.some.inj hj
  case inl =>
    exact ⟨_, .unexpected, exec_cmd_awaiting _ p hs, exec_cmd_awaiting _ p hs⟩
  case inr.inl =>
    obtain hs | hs := isAwaiting_cases hs
    · exact ⟨_, .start p, exec_data_first _ p hs, exec_data_first _ p hs⟩
    · exact ⟨_, .append p, exec_data_more _ p hs, exec_data_more _ p hs⟩
  case inr.inr.inl =>
    obtain hs | hs := isAwaiting_cases hs
    · exact ⟨_, .complete .ack p, exec_ack_first _ p hs, exec_ack_first _ p hs⟩
    · exact ⟨_, .unexpected, exec_ack_more _ p hs, exec_ack_more _ p hs⟩
  case inr.inr.inr =>
    obtain hs | hs := isAwaiting_cases hs
    · exact ⟨_, .complete .xfer p, exec_endData_first _ p hs, exec_endData_first _ p hs⟩
    · exact ⟨_, .finish p, exec_endData_more _ p hs, exec_endData_more _ p hs⟩

/-- How a packet in an awaiting state ends: the exchange fails, completes, or awaits more. -/
inductive PacketEnding (u : State) : State → Prop
  | failed (cause : Cause) : PacketEnding u (raise cause u)
  | completed (o : Result) :
      PacketEnding u { u with result := some o, rxWin := [], asm := [], sstate := .complete }
  | awaited (bytes : List Byte) : PacketEnding u { u with asm := bytes, sstate := .awaitingMore }

/-- Completion fails or completes (R183). -/
theorem complete_ending (kind : Completion) (bytes : List Byte) (u : State) :
    PacketEnding u (complete kind bytes u) := by
  obtain ⟨o, -, -, h⟩ | ⟨-, -, h⟩ := complete_cases kind bytes u
  · exact h ▸ .completed o
  · exact h ▸ .failed _

/-- Every operation of a packet has one of the three endings. -/
theorem PacketOp.ending {op : State → State} (h : PacketOp op) (u : State) : PacketEnding u (op u) := by
  cases h with
  | unexpected => exact .failed _
  | complete kind bytes => exact complete_ending kind bytes u
  | start payload =>
    simp only [appendChunk]
    split
    · exact .awaited _
    · exact .failed _
  | append payload =>
    simp only [appendChunk]
    split
    · exact .awaited _
    · exact .failed _
  | finish payload =>
    simp only [finishTransfer]
    split
    · exact complete_ending _ _ u
    · exact .failed _

/-- Completion does not read `RXADDR`. -/
theorem complete_rxAddr_comm (kind : Completion) (bytes : List Byte) (u : State) (a : Address) :
    complete kind bytes { u with rxAddr := a } = { complete kind bytes u with rxAddr := a } := by
  unfold complete
  dsimp only
  split <;> rfl

/-- No operation of a packet reads `RXADDR` (R186). -/
theorem PacketOp.rxAddr_comm {op : State → State} (h : PacketOp op) (u : State) (a : Address) :
    op { u with rxAddr := a } = { op u with rxAddr := a } := by
  cases h with
  | unexpected => rfl
  | complete kind bytes => exact complete_rxAddr_comm kind bytes u a
  | start payload | append payload =>
    unfold appendChunk
    dsimp only
    split <;> rfl
  | finish payload =>
    unfold finishTransfer
    dsimp only
    split
    · exact complete_rxAddr_comm _ _ u a
    · rfl

/-- Settles O34: a drained packet changes nothing, and a packet that is taken ends in one of three ways, each of
which writes only the registers its update names. -/
theorem packetsChangeOnlyTheirRegisters : Obligations.PacketsChangeOnlyTheirRegisters := by
  intro s t i hpacket hexec
  obtain ⟨c, hissues⟩ | ⟨a, pid, p, hrole⟩ := instr_command_or_packet i
  · rw [hissues] at hpacket; cases hpacket
  by_cases hs : isAwaiting s.sstate = true
  · obtain ⟨op, hop, hnext, -⟩ := exec_packet_awaiting hrole hrole hs
    have hending := hop.ending (acceptPacket a pid s)
    rw [Host.Outcome.next.inj (hnext.symm.trans hexec)] at hending
    cases hending <;> simp
  · rw [exec_packet_drained hrole (Bool.eq_false_iff.mpr hs)] at hexec
    obtain rfl := Host.Outcome.next.inj hexec
    simp

/-- Settles O35: in the awaiting states both packets run the same operation, which does not read `RXADDR`; in the
others both are drained. -/
theorem receivedAddressReachesOnlyRxAddr : Obligations.ReceivedAddressReachesOnlyRxAddr := by
  intro s t one other pid payload i j hi hj hexec
  by_cases hs : isAwaiting s.sstate = true
  · obtain ⟨op, hop, hone, hother⟩ := exec_packet_awaiting hi hj hs
    rw [hone] at hexec
    obtain rfl := Host.Outcome.next.inj hexec
    rw [hother, if_pos (isAwaiting_iff.mp hs), ← hop.rxAddr_comm]
    rfl
  · have hdrains := Bool.eq_false_iff.mpr hs
    rw [exec_packet_drained hi hdrains] at hexec
    rw [exec_packet_drained hj hdrains, if_neg (fun h => hs (isAwaiting_iff.mpr h)), hexec]

end Sys2Proof
end

section
/-! PROOFS. The events of a step and what each register is written by (spec 44_session_fsm.md, 10_state.md R30). -/

namespace Sys2Proof

open Machine

/-- A whole packet with a role runs its instruction (R171). -/
theorem judgeWindow_packet {w : List Byte} {a : Address} {pid : Byte} {p : List Byte} {n : Nat} {i : Instr}
    (hverdict : decodeFrame w = .ok a pid p n) (hrole : packetInstr a pid p = some i) (s : State) :
    judgeWindow w s = exec i s := by
  simp only [judgeWindow, hverdict, hrole]

/-- A whole packet without a role is unexpected (R64). -/
theorem judgeWindow_noRole {w : List Byte} {a : Address} {pid : Byte} {p : List Byte} {n : Nat}
    (hverdict : decodeFrame w = .ok a pid p n) (hrole : packetInstr a pid p = none) (s : State) :
    judgeWindow w s = .next (unexpectedPacket a pid s) := by
  simp only [judgeWindow, hverdict, hrole]

/-- With no event listed, the step of the environment's next event is the same as if it were listed, with what goes
on after it (R161, R188; log 1). -/
theorem step_unlisted {s : State} {e : Event} (hevents : s.events = []) (hdue : s.onward.due = some e) :
    step s = step { s with events := [e], onward := s.onward.next } := by
  have hnext : dueEvent s = some e := by rw [dueEvent, hevents]; exact hdue
  rw [step_due hnext, step_cons rfl, advance]
  simp only [hevents]

/-- Settles O39: the listed event is handled with the schedule advanced; with none listed, the environment's next
event is the same whether it is listed or due. -/
theorem stepRunsTheDecodedInstruction : Obligations.StepRunsTheDecodedInstruction := by
  intro s
  refine ⟨fun es c i hevents hissues => ?_, fun es b i more hevents hs hdecode => ?_, fun hevents honward => ?_,
    fun e es hevents honward => ?_, fun n hevents honward => ?_⟩
  · exact (step_issue hevents).trans (exec_command hissues _).symm
  · obtain ⟨a, pid, p, n, hverdict, hrole, -⟩ := decodeWire_ok_iff.mp hdecode
    exact (step_rxByte_awaiting hevents (isAwaiting_iff.mpr hs)).trans (judgeWindow_packet hverdict hrole _)
  · refine step_idle ?_
    obtain honward | honward := honward <;> simp only [dueEvent, hevents, honward, Onward.due]
  · have hstep := step_unlisted hevents (honward ▸ rfl : s.onward.due = some e)
    rw [honward] at hstep
    exact hstep
  · have hstep := step_unlisted hevents (honward ▸ rfl : s.onward.due = some (Config.freeEvent n))
    rw [honward] at hstep
    exact hstep

/-- Settles O42: an identifier other than the four has no role. -/
theorem identifierWithoutRoleIsUnexpected : Obligations.IdentifierWithoutRoleIsUnexpected := by
  intro s b es address pid payload n hevents hs hverdict h1 h2 h7 h8
  have hrole : packetInstr address pid payload = none := by
    rw [packetInstr, if_neg h1, if_neg h2, if_neg h7, if_neg h8]
  exact (step_rxByte_awaiting hevents (isAwaiting_iff.mpr hs)).trans (judgeWindow_noRole hverdict hrole _)

/-- Before the last byte of the frame only the position moves (R165). -/
theorem eventTxByte_more {s : State} {b : Byte} (hs : s.sstate = .sent) (hbyte : s.txBuf[s.txPos]? = some b)
    (hmore : s.txPos + 1 < s.txBuf.length) :
    eventTxByte s = .next { s with wire := s.wire ++ [b], txPos := s.txPos + 1 } := by
  simp [eventTxByte, hs, hbyte, hmore]

/-- The last byte of the frame ends the write (R166). -/
theorem eventTxByte_last {s : State} {b : Byte} (hs : s.sstate = .sent) (hbyte : s.txBuf[s.txPos]? = some b)
    (hlast : s.txPos + 1 = s.txBuf.length) :
    eventTxByte s = .next (finishWrite { s with wire := s.wire ++ [b] }) := by
  simp [eventTxByte, hs, hbyte, hlast]

/-- The step of a `TxByte` before the last byte (R165). -/
theorem step_txByte_more {s : State} {b : Byte} {es : List Event} (hevents : s.events = .txByte :: es)
    (hs : s.sstate = .sent) (hbyte : s.txBuf[s.txPos]? = some b) (hmore : s.txPos + 1 < s.txBuf.length) :
    step s = .next { s with events := es, wire := s.wire ++ [b], txPos := s.txPos + 1 } :=
  (step_cons hevents).trans (eventTxByte_more (s := { s with events := es }) hs hbyte hmore)

/-- The step of a `TxByte` at the last byte (R166). -/
theorem step_txByte_last {s : State} {b : Byte} {es : List Event} (hevents : s.events = .txByte :: es)
    (hs : s.sstate = .sent) (hbyte : s.txBuf[s.txPos]? = some b) (hlast : s.txPos + 1 = s.txBuf.length) :
    step s = .next (finishWrite { s with events := es, wire := s.wire ++ [b] }) :=
  (step_cons hevents).trans (eventTxByte_last (s := { s with events := es }) hs hbyte hlast)

/-- Settles O43: the byte is handed over either way, and the end of the write hands over no more. -/
theorem txByteEmitsTheByteAtThePosition : Obligations.TxByteEmitsTheByteAtThePosition := by
  exact fun s b es hevents hs hbyte => ⟨step_txByte_more hevents hs hbyte,
    fun hlast => ⟨_, step_txByte_last hevents hs hbyte hlast, finishWrite_wire _⟩⟩

/-- The end of the write is the failure a pending cancel asked for, or the start of the reads (R166). -/
theorem finishWrite_eq (s : State) :
    finishWrite s = if s.cancelPend then raise .cancelled s
      else { s with txBuf := [], txPos := 0, rxWin := [], asm := [], sstate := .awaitingFirstPacket } := by
  unfold finishWrite
  dsimp only
  split <;> rfl

/-- A run goes on from the state its first step answers. -/
theorem coreRun_succ {M : Host.Core} {s t : M.State} (h : M.step s = .next t) (n : Nat) :
    M.run (n + 1) s = M.run n t := by
  simp only [Host.Core.run, h]

/-- A run of the block goes on from the state its first step answers. -/
theorem run_succ {s t : State} (h : step s = .next t) (n : Nat) :
    Host.Core.run core (n + 1) s = Host.Core.run core n t :=
  coreRun_succ (M := core) h n

/-- As many `TxByte` events as bytes remain write the rest of the frame and end the write (R165, R166). -/
theorem run_txBytes {es : List Event} (n : Nat) {s : State} (hs : s.sstate = .sent)
    (hrest : s.txPos + (n + 1) = s.txBuf.length) (hevents : s.events = List.replicate (n + 1) Event.txByte ++ es) :
    Host.Core.run core (n + 1) s =
      .next (finishWrite { s with events := es, wire := s.wire ++ s.txBuf.drop s.txPos }) := by
  induction n generalizing s with
  | zero =>
    have hpos : s.txPos < s.txBuf.length := by omega
    rw [run_succ (step_txByte_last hevents hs (List.getElem?_eq_getElem hpos) hrest),
      List.drop_eq_getElem_cons hpos, List.drop_eq_nil_of_le (by omega)]
    rfl
  | succ n ih =>
    have hpos : s.txPos < s.txBuf.length := by omega
    have hstep := step_txByte_more hevents hs (List.getElem?_eq_getElem hpos) (by omega)
    have hrun := ih (s := { s with
      events := List.replicate (n + 1) Event.txByte ++ es
      wire := s.wire ++ [s.txBuf[s.txPos]]
      txPos := s.txPos + 1 }) hs (by omega : s.txPos + 1 + (n + 1) = s.txBuf.length) rfl
    refine (run_succ hstep _).trans (hrun.trans (congrArg Host.Outcome.next ?_))
    simp only [finishWrite_eq, List.drop_eq_getElem_cons hpos, List.append_assoc, List.singleton_append]
    rfl

/-- Settles O44: the bytes that remain are written one by one, and the last of them ends the write. -/
theorem theWholeFrameIsWritten : Obligations.TheWholeFrameIsWritten := by
  intro s es hs hpos hevents
  obtain ⟨n, hn⟩ := Nat.exists_eq_add_of_lt hpos
  have hcount : s.txBuf.length - s.txPos = n + 1 := by omega
  rw [hcount] at hevents ⊢
  rw [run_txBytes n hs (by omega) hevents, finishWrite_eq]
  rfl

/-- Settles O46: each event is enabled in its states, and raises its cause or holds the cancel. -/
theorem writeErrorTimeoutAndCancel : Obligations.WriteErrorTimeoutAndCancel := by
  intro s e es hevents
  rw [step_cons hevents]
  refine ⟨?_, ?_, ?_, ?_⟩
  · rintro rfl hs
    exact if_pos hs
  · rintro rfl hs
    exact if_pos (isAwaiting_iff.mpr hs)
  · rintro rfl hcan (hs | hs) <;> simp [handleEvent, eventCancel, hcan, hs]
  · rintro rfl hcan hs
    simp [handleEvent, eventCancel, hcan, hs]

/-- Settles O48: the reset is enabled in every state and writes these registers. -/
theorem resetGivesCleanIdleFromAnyState : Obligations.ResetGivesCleanIdleFromAnyState :=
  fun _ _ hevents => ⟨_, _, _, _, _, step_cons hevents, ⟨rfl, rfl, rfl, rfl, rfl, rfl, rfl⟩, rfl⟩

/-- No event writes the parameters (R22). -/
theorem Machine.Effect.params_eq {s t : State} {e : Event} (h : Effect s e t) : t.params = s.params := by
  cases h <;> simp

/-- Only the host's write in `Idle` writes `ADDR` (R11, R215). -/
theorem Machine.Effect.addr_cases {s t : State} {e : Event} (h : Effect s e t) :
    t.addr = s.addr ∨ ∃ a, e = .configure a ∧ s.sstate = .idle ∧ t.addr = a := by
  cases h with
  | configured a hidle => exact .inr ⟨a, rfl, hidle, rfl⟩
  | _ => left; simp

/-- Settles O49: an event is handled in the advanced state, whose registers are those of the state before. -/
theorem onlyConfigureWritesTheAddress : Obligations.OnlyConfigureWritesTheAddress := by
  refine ⟨fun s a es hevents hidle => (step_cons hevents).trans (if_pos hidle), fun s t hstep => ?_⟩
  obtain ⟨-, rfl⟩ | ⟨e, hdue, heffect⟩ := step_cases hstep
  · exact ⟨rfl, .inl rfl⟩
  · refine ⟨heffect.params_eq.trans (advance_params s), ?_⟩
    obtain h | ⟨a, rfl, hidle, ha⟩ := heffect.addr_cases
    · exact .inl (h.trans (advance_addr s))
    · exact .inr ⟨a, hdue, (advance_sstate s).symm.trans hidle, ha⟩

end Sys2Proof
end

section
/-! PROOFS. The invariant, session state by session state, and every step keeps it (spec 10_state.md R24). -/

namespace Sys2Proof

open Machine

/-- What the invariant says in `Sent` (R24(c)). -/
structure Sending (s : State) : Prop where
  window : s.rxWin = []
  reassembly : s.asm = []
  position : s.txPos < s.txBuf.length
  bound : s.txBuf.length ≤ Config.maxFrame
  cancel : s.cancelPend = true → s.params.hasCancel = true
  no_result : s.result = none

/-- What the invariant says in the two awaiting states (R24(a), R24(b)). -/
structure Awaiting (s : State) : Prop where
  window : decodeFrame s.rxWin = .incomplete
  reassembly : s.asm ≠ [] → s.sstate = .awaitingMore
  fits : fitsAsm s.params.asmCap s.asm.length = true
  frame : s.txBuf = []
  position : s.txPos = 0
  no_cancel : s.cancelPend = false
  no_result : s.result = none

/-- What the invariant says in `Complete` and `Failed` (R24(e), R200). -/
structure Ended (s : State) : Prop where
  window : s.rxWin = []
  reassembly : s.asm = []
  frame : s.txBuf = []
  position : s.txPos = 0
  no_cancel : s.cancelPend = false
  outcome : ∃ r, s.result = some r ∧ isFailure r = decide (s.sstate = .failed)

/-- Every buffer holds the empty payload (R179). -/
theorem fitsAsm_zero (cap : Option Nat) : fitsAsm cap 0 = true :=
  fitsAsm_eq_true fun _ _ => Nat.zero_le _

/-- A state with the invariant that has not ended holds no outcome (R24(e)). -/
theorem result_eq_none {s : State} (hinv : Inv s) (h : isEnded s.sstate = false) : s.result = none := by
  simpa [h] using hinv.result_ended

/-- In `Idle` the invariant is the clean state of R24(d). -/
theorem inv_iff_cleanIdle {s : State} (hs : s.sstate = .idle) : Inv s ↔ CleanIdle s := by
  constructor
  · intro hinv
    obtain ⟨hwindow, hasm, hframe, hpos, hcancel⟩ := exchange_empty hinv (by simp [hs]) (by simp [hs, isAwaiting])
    exact ⟨hs, hwindow, hasm, hframe, hpos, hcancel, result_eq_none hinv (by simp [hs, isEnded])⟩
  · rintro ⟨-, hwindow, hasm, hframe, hpos, hcancel, hresult⟩
    constructor <;> simp [hs, hwindow, hasm, hframe, hpos, hcancel, hresult, fitsAsm_zero, isEnded, decodeFrame,
      Config.hdrLen]

/-- In `Sent` the invariant is R24(c) with nothing received and no outcome. -/
theorem inv_iff_sending {s : State} (hs : s.sstate = .sent) : Inv s ↔ Sending s := by
  constructor
  · intro hinv
    refine ⟨?_, ?_, hinv.sent_position hs, hinv.frame_bound, fun h => (hinv.cancel_sent h).2,
      result_eq_none hinv (by simp [hs, isEnded])⟩
    · by_contra hwin
      simpa [hs, isAwaiting] using hinv.window_awaiting hwin
    · by_contra hasm
      simpa [hs] using hinv.asm_awaiting_more hasm
  · rintro ⟨hwindow, hasm, hpos, hbound, hcancel, hresult⟩
    constructor
    case cancel_sent => exact fun h => ⟨hs, hcancel h⟩
    all_goals simp [hs, hwindow, hasm, hpos, hbound, hresult, fitsAsm_zero, isEnded, decodeFrame, Config.hdrLen]

/-- In an awaiting state the invariant is R24(a) and R24(b) with nothing to write and no outcome. -/
theorem inv_iff_awaiting {s : State} (hs : isAwaiting s.sstate = true) : Inv s ↔ Awaiting s := by
  have hsent : s.sstate ≠ .sent := fun h => by simp [h, isAwaiting] at hs
  have hended : isEnded s.sstate = false := by
    obtain h | h := isAwaiting_cases hs <;> rw [h] <;> rfl
  constructor
  · intro hinv
    refine ⟨hinv.window_incomplete, hinv.asm_awaiting_more, hinv.asm_fits, ?_, hinv.position_zero hsent, ?_,
      result_eq_none hinv hended⟩
    · by_contra hframe
      exact hsent (hinv.frame_sent hframe)
    · by_contra hcancel
      exact hsent (hinv.cancel_sent (Bool.eq_true_of_not_eq_false hcancel)).1
  · rintro ⟨hwindow, hasm, hfits, hframe, hpos, hcancel, hresult⟩
    constructor
    case asm_awaiting_more => exact hasm
    all_goals simp [hs, hsent, hended, hwindow, hfits, hframe, hpos, hcancel, hresult]

/-- In an ended state the invariant is R24(e) with nothing of the exchange left. -/
theorem inv_iff_ended {s : State} (hs : isEnded s.sstate = true) : Inv s ↔ Ended s := by
  have hsent : s.sstate ≠ .sent := fun h => by simp [h, isEnded] at hs
  constructor
  · intro hinv
    obtain ⟨r, hr⟩ := exists_result_of_isEnded hinv hs
    obtain ⟨hwindow, hasm, hframe, hpos, hcancel⟩ :=
      exchange_empty hinv hsent (isAwaiting_eq_false_of_isEnded hs)
    exact ⟨hwindow, hasm, hframe, hpos, hcancel, r, hr, hinv.result_kind r hr⟩
  · rintro ⟨hwindow, hasm, hframe, hpos, hcancel, r, hr, hkind⟩
    constructor <;> simp [hs, hsent, hwindow, hasm, hframe, hpos, hcancel, hr, hkind, fitsAsm_zero, decodeFrame,
      Config.hdrLen]

/-- The schedule is no part of the invariant. -/
theorem inv_advance {s : State} (h : Inv s) : Inv (advance s) := by
  rw [advance_eq]
  exact ⟨h.1, h.2, h.3, h.4, h.5, h.6, h.7, h.8, h.9, h.10, h.11⟩

/-- The failure entry establishes the invariant from any state (R208). -/
theorem inv_raise (cause : Cause) (s : State) : Inv (raise cause s) :=
  (inv_iff_ended rfl).mpr ⟨rfl, rfl, rfl, rfl, rfl, _, rfl, rfl⟩

/-- Completion keeps the invariant (R183). -/
theorem inv_complete {s : State} (h : Awaiting s) {kind : Completion} {bytes : List Byte} :
    Inv (complete kind bytes s) := by
  obtain ⟨o, -, ho, hdone⟩ | ⟨-, -, hfailed⟩ := complete_cases kind bytes s
  · rw [hdone]
    exact (inv_iff_ended rfl).mpr ⟨rfl, rfl, h.frame, h.position, h.no_cancel, o, rfl, ho⟩
  · rw [hfailed]
    exact inv_raise _ s

/-- Taking a packet keeps the invariant: the window is emptied (R171). -/
theorem awaiting_acceptPacket {s : State} (h : Awaiting s) (a : Address) (pid : Byte) :
    Awaiting (acceptPacket a pid s) :=
  ⟨rfl, h.reassembly, h.fits, h.frame, h.position, h.no_cancel, h.no_result⟩

/-- Appending to the reassembly buffer keeps the invariant (R174, R176, R179). -/
theorem inv_appendChunk {s : State} (h : Awaiting s) {payload : List Byte} : Inv (appendChunk payload s) := by
  unfold appendChunk
  split
  case isTrue hfits =>
    exact (inv_iff_awaiting rfl).mpr ⟨h.window, fun _ => rfl, by simpa using hfits, h.frame, h.position, h.no_cancel,
      h.no_result⟩
  case isFalse => exact inv_raise _ s

/-- The end of a transfer keeps the invariant (R177, R179). -/
theorem inv_finishTransfer {s : State} (h : Awaiting s) {payload : List Byte} : Inv (finishTransfer payload s) := by
  unfold finishTransfer
  split
  · exact inv_complete h
  · exact inv_raise _ s

/-- The end of the write keeps the invariant (R166). -/
theorem inv_finishWrite {s : State} (h : Sending s) : Inv (finishWrite s) := by
  rw [finishWrite_eq]
  split
  case isTrue => exact inv_raise _ s
  case isFalse hcancel =>
    exact (inv_iff_awaiting rfl).mpr ⟨rfl, fun h => absurd rfl h, fitsAsm_zero _, rfl, rfl, by simpa using hcancel,
      h.no_result⟩

/-- Every event that is handled keeps the invariant. -/
theorem Machine.Effect.inv {s t : State} {e : Event} (heffect : Effect s e t) (hinv : Inv s) : Inv t := by
  cases heffect with
  | issued c idle typed len =>
    obtain ⟨-, hwindow, hasm, -, -, hcancel, hresult⟩ := (inv_iff_cleanIdle idle).mp hinv
    have hlen : (cmdEncode s.params.cmdTab c).length ≤ 65533 := len
    exact (inv_iff_sending rfl).mpr ⟨hwindow, hasm, by simp [length_rawFrame],
      by simpa [length_rawFrame, Config.maxFrame] using hlen, by simp [hcancel], hresult⟩
  | tooLarge c idle =>
    obtain ⟨-, hwindow, hasm, hframe, hpos, hcancel, -⟩ := (inv_iff_cleanIdle idle).mp hinv
    exact (inv_iff_ended rfl).mpr ⟨hwindow, hasm, hframe, hpos, hcancel, _, rfl, rfl⟩
  | taken ended =>
    obtain ⟨hwindow, hasm, hframe, hpos, hcancel, -⟩ := (inv_iff_ended ended).mp hinv
    exact (inv_iff_cleanIdle rfl).mpr ⟨rfl, hwindow, hasm, hframe, hpos, hcancel, rfl⟩
  | cancelHeld sent can =>
    obtain ⟨hwindow, hasm, hpos, hbound, -, hresult⟩ := (inv_iff_sending sent).mp hinv
    exact (inv_iff_sending (s := { s with cancelPend := true }) sent).mpr
      ⟨hwindow, hasm, hpos, hbound, fun _ => can, hresult⟩
  | reset => exact (inv_iff_cleanIdle rfl).mpr ⟨rfl, rfl, rfl, rfl, rfl, rfl, rfl⟩
  | txMore b sent byte more =>
    obtain ⟨hwindow, hasm, -, hbound, hcancel, hresult⟩ := (inv_iff_sending sent).mp hinv
    exact (inv_iff_sending (s := { s with wire := s.wire ++ [b], txPos := s.txPos + 1 }) sent).mpr
      ⟨hwindow, hasm, more, hbound, hcancel, hresult⟩
  | txLast b sent =>
    obtain ⟨hwindow, hasm, hpos, hbound, hcancel, hresult⟩ := (inv_iff_sending sent).mp hinv
    exact inv_finishWrite ⟨hwindow, hasm, hpos, hbound, hcancel, hresult⟩
  | cancelled | txError | rxError | timeout | fatal | unexpected => exact inv_raise _ _
  | configured a idle =>
    obtain ⟨-, hwindow, hasm, hframe, hpos, hcancel, hresult⟩ := (inv_iff_cleanIdle idle).mp hinv
    exact (inv_iff_cleanIdle (s := { s with addr := a }) idle).mpr
      ⟨idle, hwindow, hasm, hframe, hpos, hcancel, hresult⟩
  | dropped => exact hinv
  | kept b awaiting verdict =>
    obtain ⟨-, hasm, hfits, hframe, hpos, hcancel, hresult⟩ := (inv_iff_awaiting awaiting).mp hinv
    exact (inv_iff_awaiting (s := { s with rxWin := s.rxWin ++ [b] }) awaiting).mpr
      ⟨verdict, hasm, hfits, hframe, hpos, hcancel, hresult⟩
  | acked b a p n first | firstEnd b a p n first =>
    have h := (inv_iff_awaiting (isAwaiting_iff.mpr (.inl first))).mp hinv
    exact inv_complete (awaiting_acceptPacket h a _)
  | firstData b a p n first =>
    have h := (inv_iff_awaiting (isAwaiting_iff.mpr (.inl first))).mp hinv
    have hstart : Awaiting { acceptPacket a 0x02 s with asm := [] } :=
      ⟨rfl, fun h => absurd rfl h, fitsAsm_zero _, h.frame, h.position, h.no_cancel, h.no_result⟩
    exact inv_appendChunk hstart
  | moreData b a p n more =>
    have h := (inv_iff_awaiting (isAwaiting_iff.mpr (.inr more))).mp hinv
    exact inv_appendChunk (awaiting_acceptPacket h a 0x02)
  | lastEnd b a p n more =>
    have h := (inv_iff_awaiting (isAwaiting_iff.mpr (.inr more))).mp hinv
    exact inv_finishTransfer (awaiting_acceptPacket h a 0x08)

/-- Settles O50: a step waits, or handles an event in the advanced state. -/
theorem everyStepKeepsTheInvariant : Obligations.EveryStepKeepsTheInvariant := by
  intro s t hinv hstep
  obtain ⟨-, rfl⟩ | ⟨e, -, heffect⟩ := step_cases hstep
  · exact hinv
  · exact heffect.inv (inv_advance hinv)

/-- Settles O51: the reset state is a clean `Idle`. -/
theorem resetHasTheInvariant : Obligations.ResetHasTheInvariant :=
  (inv_iff_cleanIdle rfl).mpr ⟨rfl, rfl, rfl, rfl, rfl, rfl, rfl⟩

end Sys2Proof
end

section
/-! PROOFS. What a step can do to the registers of an exchange (spec 44_session_fsm.md, 60_exceptions.md). -/

namespace Sys2Proof

open Machine

/-- `CUR_CMD` is written by an issue in `Idle` and by `Reset` alone (R13). -/
theorem Machine.Effect.curCmd_cases {s t : State} {e : Event} (h : Effect s e t) :
    t.curCmd = s.curCmd ∨ (∃ c, e = .issue c ∧ s.sstate = .idle ∧ t.curCmd = c) ∨ e = .reset := by
  cases h with
  | issued c idle | tooLarge c idle => exact .inr (.inl ⟨c, rfl, idle, rfl⟩)
  | reset => exact .inr (.inr rfl)
  | _ => left; simp

/-- Bytes are written by `TxByte` in `Sent` alone, and the write fails the exchange only at its last byte and with
a cancel pending (R165, R166). -/
theorem Machine.Effect.wire_cases {s t : State} {e : Event} (h : Effect s e t) :
    t.wire = s.wire ∨ ∃ b, e = .txByte ∧ s.sstate = .sent ∧ s.txBuf[s.txPos]? = some b ∧ t.wire = s.wire ++ [b] ∧
      (t.sstate = .failed → s.cancelPend = true ∧ s.txPos + 1 = s.txBuf.length) := by
  cases h with
  | txMore b sent byte => exact .inr ⟨b, rfl, sent, byte, rfl, fun hfailed => by simp [sent] at hfailed⟩
  | txLast b sent byte last =>
    refine .inr ⟨b, rfl, sent, byte, finishWrite_wire _, fun hfailed => ?_⟩
    obtain ⟨hpos, -⟩ := List.getElem?_eq_some_iff.mp byte
    refine ⟨?_, by omega⟩
    by_contra hcancel
    rw [finishWrite_eq, if_neg hcancel] at hfailed
    cases hfailed
  | _ => left; simp

/-- Outcomes are handed over by `TakeResult` alone (R184). -/
theorem Machine.Effect.taken_cases {s t : State} {e : Event} (h : Effect s e t) :
    t.taken = s.taken ∨ e = .takeResult ∧ isEnded s.sstate = true ∧ t = takeOutcome s := by
  cases h with
  | taken ended => exact .inr ⟨rfl, ended, rfl⟩
  | _ => left; simp

/-- Settles O56: only these two events write `CUR_CMD`. -/
theorem commandRegisterIsStableDuringAnExchange : Obligations.CommandRegisterIsStableDuringAnExchange := by
  intro s t hstep
  obtain ⟨-, rfl⟩ | ⟨e, hdue, heffect⟩ := step_cases hstep
  · exact .inl rfl
  obtain h | ⟨c, rfl, hidle, hc⟩ | rfl := heffect.curCmd_cases
  · exact .inl (h.trans (advance_curCmd s))
  · exact .inr (.inl ⟨c, hdue, (advance_sstate s).symm.trans hidle, hc⟩)
  · exact .inr (.inr hdue)

/-- A step that writes a byte takes a `TxByte` in `Sent` (R165, R166). -/
theorem step_wire_cases {s t : State} (hstep : step s = .next t) :
    t.wire = s.wire ∨ ∃ b, dueEvent s = some .txByte ∧ s.sstate = .sent ∧ s.txBuf[s.txPos]? = some b ∧
      t.wire = s.wire ++ [b] ∧ (t.sstate = .failed → s.cancelPend = true ∧ s.txPos + 1 = s.txBuf.length) := by
  obtain ⟨-, rfl⟩ | ⟨e, hdue, heffect⟩ := step_cases hstep
  · exact .inl rfl
  obtain h | ⟨b, rfl, h⟩ := heffect.wire_cases
  · exact .inl (h.trans (advance_wire s))
  · simp only [advance_sstate, advance_txBuf, advance_txPos, advance_wire, advance_cancelPend] at h
    exact .inr ⟨b, hdue, h⟩

/-- Settles O57: a step writes a byte by `TxByte` in `Sent` or none. -/
theorem onlyTxByteWritesTheWire : Obligations.OnlyTxByteWritesTheWire := by
  intro s t hstep
  obtain h | ⟨b, hdue, hsent, hbyte, hwire, -⟩ := step_wire_cases hstep
  · exact .inl h
  · exact .inr ⟨b, hdue, hsent, hbyte, hwire⟩

/-- Settles O58: only `TakeResult` hands an outcome over, and the invariant says there is one. -/
theorem outcomesReachTheHostOnlyByTakeResult : Obligations.OutcomesReachTheHostOnlyByTakeResult := by
  intro s t hinv hstep
  obtain ⟨-, rfl⟩ | ⟨e, hdue, heffect⟩ := step_cases hstep
  · exact .inl rfl
  obtain h | ⟨rfl, hended, rfl⟩ := heffect.taken_cases
  · exact .inl (h.trans (advance_taken s))
  · rw [advance_sstate] at hended
    obtain ⟨r, hr⟩ := exists_result_of_isEnded hinv hended
    exact .inr ⟨r, hdue, hr, by simp [hr], rfl⟩

/-- An outcome that is a failure has a cause (R200). -/
theorem exists_cause {r : Result} (h : isFailure r = true) : ∃ cause, r = .failed cause := by
  cases r with
  | failed cause => exact ⟨cause, rfl⟩
  | success | data | deviceError => cases h

/-- Settles O53: the invariant of the state after the step says what `Failed` holds; only the last byte of a
cancelled write comes with the entry. -/
theorem enteringFailedDiscardsEverything : Obligations.EnteringFailedDiscardsEverything := by
  intro s t hinv hstep _ hfailed
  obtain ⟨hwindow, hasm, hframe, hpos, hcancel, r, hr, hkind⟩ :=
    (inv_iff_ended (by rw [hfailed]; rfl)).mp (everyStepKeepsTheInvariant s t hinv hstep)
  obtain ⟨cause, rfl⟩ := exists_cause (hkind.trans (decide_eq_true hfailed))
  refine ⟨⟨cause, hr⟩, hwindow, hasm, hframe, hpos, hcancel, ?_⟩
  obtain h | ⟨b, hdue, -, hbyte, hwire, hlast⟩ := step_wire_cases hstep
  · exact .inl h
  · obtain ⟨hpending, hend⟩ := hlast hfailed
    exact .inr ⟨b, hdue, hpending, hend, hbyte, hwire⟩

/-- How an event leaves `AwaitingMore`, if it does (R187). -/
theorem Machine.Effect.of_awaitingMore {s t : State} {e : Event} (h : Effect s e t) (hs : s.sstate = .awaitingMore) :
    t.sstate = .awaitingMore ∨
    (t.sstate = .complete ∧ ∃ b a p n, e = .rxByte b ∧ decodeFrame (s.rxWin ++ [b]) = .ok a 0x08 p n ∧
      t.result = some (.data (s.asm ++ p))) ∨
    (t.sstate = .failed ∧ ∃ cause, t.result = some (.failed cause)) ∨ (t.sstate = .idle ∧ e = .reset) := by
  cases h with
  | issued _ h | tooLarge _ h | configured _ h | cancelHeld h | txMore _ h | txLast _ h | txError h
  | acked _ _ _ _ h | firstData _ _ _ _ h | firstEnd _ _ _ _ h => cases h.symm.trans hs
  | taken h => simp [hs, isEnded] at h
  | dropped _ h => simp [hs, isAwaiting] at h
  | kept => exact .inl hs
  | cancelled | rxError | timeout | fatal | unexpected => exact .inr (.inr (.inl ⟨rfl, _, rfl⟩))
  | reset => exact .inr (.inr (.inr ⟨rfl, rfl⟩))
  | moreData b a p n =>
    unfold appendChunk
    split
    · exact .inl rfl
    · exact .inr (.inr (.inl ⟨rfl, _, rfl⟩))
  | lastEnd b a p n _ verdict =>
    unfold finishTransfer
    split
    · exact .inr (.inl ⟨rfl, b, a, p, n, rfl, verdict, rfl⟩)
    · exact .inr (.inr (.inl ⟨rfl, _, rfl⟩))

/-- Settles O55: a step that waits does not leave the state, and one that handles an event leaves it in one of
these ways. -/
theorem awaitingMoreIsLeftOnlyByEndFailureOrReset : Obligations.AwaitingMoreIsLeftOnlyByEndFailureOrReset := by
  intro s t hstep hs hleft
  obtain ⟨-, rfl⟩ | ⟨e, hdue, heffect⟩ := step_cases hstep
  · exact absurd hs hleft
  obtain h | ⟨hdone, b, a, p, n, rfl, hverdict, hresult⟩ | h | ⟨hidle, rfl⟩ :=
    heffect.of_awaitingMore ((advance_sstate s).trans hs)
  · exact absurd h hleft
  · rw [advance_rxWin] at hverdict
    rw [advance_asm] at hresult
    exact .inl ⟨hdone, b, a, p, n, hdue, hverdict, hresult⟩
  · exact .inr (.inl h)
  · exact .inr (.inr ⟨hidle, hdue⟩)

end Sys2Proof
end

section
/-! PROOFS. Which events a state refuses (spec 10_state.md R30, 44_session_fsm.md R160). -/

namespace Sys2Proof

open Machine

/-- The judgement of a window in an awaiting state answers a next state, whatever the verdict (R169 to R171). -/
theorem judgeWindow_next {s : State} (hs : isAwaiting s.sstate = true) (w : List Byte) :
    ∃ t, judgeWindow w s = .next t := by
  cases hverdict : decodeFrame w with
  | incomplete => exact ⟨_, judgeWindow_incomplete hverdict s⟩
  | badMagic | badLength | checksumError => exact ⟨_, judgeWindow_fatal (congrArg verdictCause hverdict) s⟩
  | ok a pid p n =>
    cases hrole : packetInstr a pid p with
    | none => exact ⟨_, judgeWindow_noRole hverdict hrole s⟩
    | some i =>
      obtain ⟨op, -, hnext, -⟩ := exec_packet_awaiting hrole hrole hs
      exact ⟨_, (judgeWindow_packet hverdict hrole s).trans hnext⟩

/-- A typed command in `Idle` is accepted or too long (R163, R164). -/
theorem issueCommand_answers {s : State} {c : Command} (hidle : s.sstate = .idle)
    (htyped : commandTyped s.params.cmdTab c = true) : ∃ t, issueCommand c s = .next t := by
  by_cases hfits : (cmdEncode s.params.cmdTab c).length ≤ Config.maxPayload
  · exact ⟨_, issueCommand_fits hidle htyped hfits⟩
  · exact ⟨_, issueCommand_tooLong hidle htyped (Nat.lt_of_not_le hfits)⟩

/-- An enabled event answers a next state; only `TxByte` needs the invariant for it (R24(c), R30). -/
theorem handleEvent_enabled {s : State} (hinv : Inv s) {e : Event} (h : eventEnabled e s = true) :
    ∃ t, handleEvent e s = .next t := by
  cases e with
  | issue c =>
    simp only [eventEnabled, Bool.and_eq_true, decide_eq_true_eq] at h
    obtain ⟨t, ht⟩ := issueCommand_answers h.1 h.2
    exact ⟨t, (eventIssue_eq c s).trans ht⟩
  | takeResult => exact ⟨_, if_pos h⟩
  | cancel =>
    simp only [eventEnabled, Bool.and_eq_true, Bool.or_eq_true, decide_eq_true_eq, isAwaiting_iff] at h
    obtain ⟨hcan, hs | hs | hs⟩ := h <;> simp [handleEvent, eventCancel, hcan, hs]
  | reset => exact ⟨_, rfl⟩
  | txByte =>
    have hs : s.sstate = .sent := by simpa [eventEnabled] using h
    have hpos := hinv.sent_position hs
    have hbyte := List.getElem?_eq_getElem hpos
    by_cases hmore : s.txPos + 1 < s.txBuf.length
    · exact ⟨_, eventTxByte_more hs hbyte hmore⟩
    · exact ⟨_, eventTxByte_last hs hbyte (by omega)⟩
  | txError => exact ⟨_, if_pos (by simpa [eventEnabled] using h)⟩
  | rxByte b =>
    by_cases hs : isAwaiting s.sstate = true
    · obtain ⟨t, ht⟩ := judgeWindow_next hs (s.rxWin ++ [b])
      exact ⟨t, (if_pos hs).trans ht⟩
    · exact ⟨s, if_neg hs⟩
  | rxError | timeout => exact ⟨_, if_pos h⟩
  | configure a => exact ⟨_, if_pos (by simpa [eventEnabled] using h)⟩

/-- An event that is not enabled is refused (R30, R160; log 2). -/
theorem handleEvent_disabled {s : State} {e : Event} (h : eventEnabled e s = false) :
    ∃ r, handleEvent e s = .refused r := by
  cases e with
  | issue c =>
    by_cases hidle : s.sstate = .idle
    · have htyped : commandTyped s.params.cmdTab c = false := by simpa [eventEnabled, hidle] using h
      exact ⟨_, (eventIssue_eq c s).trans (issueCommand_illTyped hidle htyped)⟩
    · exact ⟨_, (eventIssue_eq c s).trans (issueCommand_busy hidle c)⟩
  | cancel =>
    by_cases hcan : s.params.hasCancel = true
    · cases hs : s.sstate <;> simp_all [eventEnabled, handleEvent, eventCancel, isAwaiting]
    · exact ⟨_, if_pos (by simpa using hcan)⟩
  | reset | rxByte b => cases h
  | txByte => exact ⟨_, if_pos (by simpa [eventEnabled] using h)⟩
  | takeResult | rxError | timeout => exact ⟨_, if_neg (Bool.eq_false_iff.mp h)⟩
  | txError | configure a => exact ⟨_, if_neg (by simpa [eventEnabled] using h)⟩

/-- Taking an event off the schedule enables and disables none. -/
theorem eventEnabled_advance (e : Event) (s : State) : eventEnabled e (advance s) = eventEnabled e s := by
  cases e <;> simp [eventEnabled]

/-- Settles O52: a step waits, or handles the due event, which answers a next state when it is enabled and is refused
when it is not. -/
theorem stepStopsExactlyOnEventsNotEnabled : Obligations.StepStopsExactlyOnEventsNotEnabled := by
  intro s hinv
  cases hdue : dueEvent s with
  | none => simp [step_idle hdue]
  | some e =>
    rw [step_due hdue]
    cases henabled : eventEnabled e s with
    | true =>
      obtain ⟨t, ht⟩ := handleEvent_enabled (inv_advance hinv) ((eventEnabled_advance e s).trans henabled)
      simp [ht, henabled]
    | false =>
      obtain ⟨r, hr⟩ := handleEvent_disabled ((eventEnabled_advance e s).trans henabled)
      simp [hr, henabled]

end Sys2Proof
end

section
/-! PROOFS. Multi-packet payloads (spec 44_session_fsm.md R188, R190, R191). -/

namespace Sys2Proof

open Machine

/-- `Split` cuts whole chunks from the front, as long as more than a chunk is left (R190). -/
theorem splitFuel_eq {chunk : Nat} (hchunk : 1 ≤ chunk) {fuel : Nat} {bytes : List Byte}
    (hfuel : bytes.length ≤ fuel) :
    ∃ (front : List (List Byte)) (final : List Byte),
      splitFuel fuel chunk bytes = front.map (fun p => ((0x02 : Byte), p)) ++ [((0x08 : Byte), final)] ∧
      front.flatten ++ final = bytes ∧ (∀ p ∈ front, p.length = chunk) ∧ final.length ≤ chunk ∧
      (bytes ≠ [] → final ≠ []) := by
  induction fuel generalizing bytes with
  | zero =>
    obtain rfl := List.eq_nil_of_length_eq_zero (Nat.le_zero.mp hfuel)
    exact ⟨[], [], rfl, rfl, by simp, Nat.zero_le _, fun h => h⟩
  | succ fuel ih =>
    by_cases hlast : bytes.length ≤ chunk
    · exact ⟨[], bytes, if_pos hlast, rfl, by simp, hlast, fun h => h⟩
    · obtain ⟨front, final, hsplit, hflat, hfront, hfinal, hne⟩ :=
        ih (bytes := bytes.drop chunk) (by rw [List.length_drop]; omega)
      refine ⟨bytes.take chunk :: front, final, ?_, ?_, ?_, hfinal, fun _ => hne ?_⟩
      · rw [splitFuel, if_neg hlast, hsplit]; rfl
      · rw [List.flatten_cons, List.append_assoc, hflat, List.take_append_drop]
      · exact List.forall_mem_cons.mpr ⟨List.length_take_of_le (Nat.le_of_not_le hlast), hfront⟩
      · simpa using Nat.lt_of_not_le hlast

/-- The payloads of tagged parts are the parts. -/
theorem flatten_map_snd_tagged (front : List (List Byte)) (final : List Byte) :
    ((front.map (fun p => ((0x02 : Byte), p)) ++ [((0x08 : Byte), final)]).map Prod.snd).flatten =
      front.flatten ++ final := by
  simp [Function.comp_def]

/-- Settles O59: there is fuel for every byte, and every cut takes at least one. -/
theorem splitTagsAndKeepsEveryByte : Obligations.SplitTagsAndKeepsEveryByte := by
  intro bytes chunk
  obtain ⟨front, final, hsplit, hflat, hfront, hfinal, hne⟩ := splitFuel_eq chunk.property.1 (Nat.le_refl bytes.length)
  refine ⟨?_, front, final, hsplit, hfront, hfinal, hne⟩
  rw [splitPayload, hsplit, flatten_map_snd_tagged, hflat]

/-- The bytes of a frame as they arrive leave the window incomplete until the last one makes it the packet (R112,
R113). -/
theorem decodeFrame_delivered {a : Address} {pid : Byte} {p pre suf : List Byte} {b : Byte}
    (hfits : p.length ≤ Config.maxPayload) (hframe : pre ++ b :: suf = rawFrame a pid p) :
    decodeFrame (pre ++ [b]) = if suf = [] then .ok a pid p (rawFrame a pid p).length else .incomplete := by
  split
  case isTrue hdone =>
    subst hdone
    rw [hframe]
    exact decodeFrame_eq_ok_iff.mpr ⟨hfits, rfl, List.prefix_refl _⟩
  case isFalse hmore =>
    have htake : (rawFrame a pid p).take (pre.length + 1) = pre ++ [b] := by
      rw [← hframe, List.append_cons]
      exact List.take_left' (by simp)
    rw [← htake]
    refine decodeFrame_take_rawFrame hfits a pid ?_
    have hpos := List.length_pos_iff.mpr hmore
    rw [← hframe, List.length_append, List.length_cons]
    omega

/-- A packet in an awaiting state does not read the window, which it empties (R171). -/
theorem exec_packet_setWindow {a : Address} {pid : Byte} {p : List Byte} {i : Instr} {s : State}
    (hrole : packetInstr a pid p = some i) (hs : isAwaiting s.sstate = true) (w : List Byte) :
    exec i { s with rxWin := w } = exec i s := by
  obtain ⟨rfl, rfl⟩ | ⟨rfl, rfl⟩ | ⟨rfl, rfl⟩ | ⟨rfl, rfl⟩ := packetInstr_cases hrole <;>
    obtain hs | hs := isAwaiting_cases hs <;>
    simp only [exec, execCmd, execData, execAck, execEndData, hs] <;> rfl

/-- The rest of a frame, delivered byte by byte to an awaiting state that holds its beginning, runs the packet's
instruction (R168, R169, R171). -/
theorem run_frame_rest {a : Address} {pid : Byte} {p : List Byte} {i : Instr} (hfits : p.length ≤ Config.maxPayload)
    (hrole : packetInstr a pid p = some i) {es : List Event} {t : State} (n : Nat) (b : Byte) (suf : List Byte)
    {s : State} (hs : isAwaiting s.sstate = true) (hframe : s.rxWin ++ b :: suf = rawFrame a pid p)
    (hevents : s.events = Event.rxByte b :: (suf.map Event.rxByte ++ es))
    (hexec : exec i { s with events := es } = .next t) :
    Host.Core.run core (suf.length + 1 + n) s = Host.Core.run core n t := by
  have hverdict := decodeFrame_delivered hfits hframe
  induction suf generalizing s b with
  | nil =>
    have hstep : step s = .next t :=
      (step_rxByte_awaiting hevents hs).trans ((judgeWindow_packet hverdict hrole _).trans hexec)
    rw [List.length_nil, Nat.zero_add, Nat.add_comm]
    exact run_succ hstep n
  | cons c suf ih =>
    have hstep := (step_rxByte_awaiting hevents hs).trans (judgeWindow_incomplete hverdict _)
    have hframe' : (s.rxWin ++ [b]) ++ c :: suf = rawFrame a pid p :=
      (List.append_cons _ _ _).symm.trans hframe
    rw [List.length_cons, Nat.add_right_comm]
    refine (run_succ hstep _).trans ?_
    exact ih c (s := { s with events := (c :: suf).map Event.rxByte ++ es, rxWin := s.rxWin ++ [b] }) hs hframe' rfl
      ((exec_packet_setWindow (s := { s with events := es }) hrole hs _).trans hexec)
      (decodeFrame_delivered hfits hframe')

/-- A frame has a first byte. -/
theorem exists_rawFrame_cons (a : Address) (pid : Byte) (p : List Byte) : ∃ b rest, rawFrame a pid p = b :: rest :=
  ⟨_, _, rawFrame_cons a pid p⟩

/-- A frame delivered byte by byte to an awaiting state with an empty window runs the packet's instruction. -/
theorem run_frame {a : Address} {pid : Byte} {p : List Byte} {i : Instr} (hfits : p.length ≤ Config.maxPayload)
    (hrole : packetInstr a pid p = some i) {es : List Event} {s t : State} (n : Nat)
    (hs : isAwaiting s.sstate = true) (hwin : s.rxWin = [])
    (hevents : s.events = (rawFrame a pid p).map Event.rxByte ++ es)
    (hexec : exec i { s with events := es } = .next t) :
    Host.Core.run core ((rawFrame a pid p).length + n) s = Host.Core.run core n t := by
  obtain ⟨b, suf, hframe⟩ := exists_rawFrame_cons a pid p
  rw [hframe] at hevents ⊢
  exact run_frame_rest hfits hrole n b suf hs (by rw [hwin, hframe]; rfl) hevents hexec

/-- The bytes of a transfer: data packets and one end-of-data packet (R190). -/
def transferBytes (a : Address) (front : List (List Byte)) (final : List Byte) : List Byte :=
  (front.map (rawFrame a 0x02)).flatten ++ rawFrame a 0x08 final

theorem transferBytes_nil (a : Address) (final : List Byte) : transferBytes a [] final = rawFrame a 0x08 final := rfl

theorem transferBytes_cons (a : Address) (p : List Byte) (front : List (List Byte)) (final : List Byte) :
    transferBytes a (p :: front) final = rawFrame a 0x02 p ++ transferBytes a front final := by
  simp [transferBytes]

/-- The frames of tagged parts are those of a transfer. -/
theorem flatten_map_rawFrame_tagged (a : Address) (front : List (List Byte)) (final : List Byte) :
    ((front.map (fun p => ((0x02 : Byte), p)) ++ [((0x08 : Byte), final)]).map fun q => rawFrame a q.1 q.2).flatten =
      transferBytes a front final := by
  simp [transferBytes, Function.comp_def]

/-- The rest of a transfer, delivered while more packets are awaited, completes the exchange with what is
assembled and the payloads of the rest (R176, R177). -/
theorem run_transfer_more {a : Address} {es : List Event} {front : List (List Byte)} {final : List Byte} {s : State}
    (hs : s.sstate = .awaitingMore) (hwin : s.rxWin = []) (hfront : ∀ p ∈ front, p.length ≤ Config.maxPayload)
    (hfinal : final.length ≤ Config.maxPayload)
    (hfits : fitsAsm s.params.asmCap (s.asm ++ (front.flatten ++ final)).length = true)
    (hevents : s.events = (transferBytes a front final).map Event.rxByte ++ es) :
    Host.Core.run core (transferBytes a front final).length s = .next { s with
      events := es
      rxAddr := a
      rxPid := 0x08
      rxWin := []
      asm := []
      result := some (.data (s.asm ++ (front.flatten ++ final)))
      sstate := .complete } := by
  induction front generalizing s with
  | nil =>
    have hexec := exec_endData_more_fits (s := { s with events := es }) (p := final) a hs (by simpa using hfits)
    exact run_frame hfinal rfl 0 (isAwaiting_iff.mpr (.inr hs)) hwin hevents hexec
  | cons p front ih =>
    rw [transferBytes_cons, List.map_append, List.append_assoc] at hevents
    rw [List.flatten_cons, List.append_assoc, ← List.append_assoc s.asm] at hfits ⊢
    have hfits' : fitsAsm s.params.asmCap (s.asm.length + p.length) = true :=
      fitsAsm_mono hfits (by simp only [List.length_append]; omega)
    have hexec := exec_data_more_fits
      (s := { s with events := (transferBytes a front final).map Event.rxByte ++ es }) a hs hfits'
    rw [transferBytes_cons, List.length_append]
    refine (run_frame (hfront p List.mem_cons_self) rfl _ (isAwaiting_iff.mpr (.inr hs)) hwin hevents hexec).trans ?_
    exact ih (s := { s with
      events := (transferBytes a front final).map Event.rxByte ++ es
      rxAddr := a
      rxPid := 0x02
      rxWin := []
      asm := s.asm ++ p }) hs rfl (fun q hq => hfront q (List.mem_cons_of_mem p hq)) hfits rfl

/-- A whole transfer, delivered to a session that awaits its first packet, completes the exchange with its payloads
(R173, R174, R191). -/
theorem run_transfer {a : Address} {es : List Event} {front : List (List Byte)} {final : List Byte} {s : State}
    (hs : s.sstate = .awaitingFirstPacket) (hwin : s.rxWin = []) (hfront : ∀ p ∈ front, p.length ≤ Config.maxPayload)
    (hfinal : final.length ≤ Config.maxPayload)
    (hfits : fitsAsm s.params.asmCap (front.flatten ++ final).length = true)
    (hevents : s.events = (transferBytes a front final).map Event.rxByte ++ es) :
    Host.Core.run core (transferBytes a front final).length s = .next { s with
      events := es
      rxAddr := a
      rxPid := 0x08
      rxWin := []
      asm := []
      result := some (.data (front.flatten ++ final))
      sstate := .complete } := by
  cases front with
  | nil =>
    have hexec := exec_endData_first (s := { s with events := es }) a final hs
    exact run_frame hfinal rfl 0 (isAwaiting_iff.mpr (.inl hs)) hwin hevents hexec
  | cons p front =>
    rw [transferBytes_cons, List.map_append, List.append_assoc] at hevents
    rw [List.flatten_cons, List.append_assoc] at hfits ⊢
    have hfits' : fitsAsm s.params.asmCap p.length = true :=
      fitsAsm_mono hfits (by simp only [List.length_append]; omega)
    have hexec := exec_data_first_fits
      (s := { s with events := (transferBytes a front final).map Event.rxByte ++ es }) a hs hfits'
    rw [transferBytes_cons, List.length_append]
    refine (run_frame (hfront p List.mem_cons_self) rfl _ (isAwaiting_iff.mpr (.inl hs)) hwin hevents hexec).trans ?_
    exact run_transfer_more (s := { s with
      events := (transferBytes a front final).map Event.rxByte ++ es
      rxAddr := a
      rxPid := 0x02
      rxWin := []
      asm := p
      sstate := .awaitingMore }) rfl rfl (fun q hq => hfront q (List.mem_cons_of_mem p hq)) hfinal hfits rfl

/-- Settles O60: a split payload is a transfer whose payloads are its parts in order, each short enough for a
frame. -/
theorem reassemblyInvertsSplitting : Obligations.ReassemblyInvertsSplitting := by
  intro s address bytes chunk es hs hwin hcap hevents
  obtain ⟨front, final, hsplit, hflat, hfront, hfinal, -⟩ := splitFuel_eq chunk.property.1 (Nat.le_refl bytes.length)
  have hframes : (splitFrames address bytes chunk).flatten = transferBytes address front final := by
    rw [splitFrames, splitPayload, hsplit, flatten_map_rawFrame_tagged]
  have hchunk : chunk.val ≤ Config.maxPayload := chunk.property.2
  rw [hframes] at hevents ⊢
  subst hflat
  exact run_transfer hs hwin (fun p hp => (hfront p hp).trans_le hchunk) (hfinal.trans hchunk) (fitsAsm_eq_true hcap)
    hevents

end Sys2Proof
end

section
/-! PROOFS. The executions that never end (spec 44_session_fsm.md R188). -/

namespace Sys2Proof

open Machine

/-- What holds of a state, and of the state each step answers, holds after runs of every length. -/
theorem run_keeps {P : State → Prop} (hstep : ∀ s, P s → ∃ t, step s = .next t ∧ P t) (n : Nat) {s : State}
    (hs : P s) : ∃ t, Host.Core.run core n s = .next t ∧ P t := by
  induction n generalizing s with
  | zero => exact ⟨s, rfl, hs⟩
  | succ n ih =>
    obtain ⟨t, hnext, ht⟩ := hstep s hs
    obtain ⟨u, hrun, hu⟩ := ih ht
    exact ⟨u, (run_succ hnext n).trans hrun, hu⟩

/-- A session that assembles, somewhere in the bytes of a data packet that comes over and over, with room for it
(R188(b)). -/
structure RepeatedData (a : Address) (p : List Byte) (s : State) : Prop where
  more : s.sstate = .awaitingMore
  unlisted : s.events = []
  cycle : ∃ b suf, s.rxWin ++ b :: suf = rawFrame a 0x02 p ∧
    s.onward = .again ((b :: suf ++ s.rxWin).map Event.rxByte)
  room : s.params.asmCap = none ∨ p = [] ∧ ∀ cap, s.params.asmCap = some cap → s.asm.length ≤ cap

/-- Where there is room for the packet over and over, it fits now. -/
theorem RepeatedData.fits {a : Address} {p : List Byte} {s : State} (h : RepeatedData a p s) :
    fitsAsm s.params.asmCap (s.asm.length + p.length) = true := by
  refine fitsAsm_eq_true fun cap hcap => ?_
  obtain hnone | ⟨rfl, hroom⟩ := h.room
  · rw [hnone] at hcap; cases hcap
  · exact hroom cap hcap

/-- The step of a received byte that is due. -/
theorem step_due_rxByte {s : State} {b : Byte} (hdue : dueEvent s = some (.rxByte b))
    (hs : isAwaiting s.sstate = true) : step s = judgeWindow (s.rxWin ++ [b]) (advance s) := by
  rw [step_due hdue, handleEvent, eventRxByte, advance_sstate, if_pos hs, advance_rxWin]

/-- The next byte of the repeated packet is kept, or is its last and the packet is appended; either way it goes to
the end of the cycle (R169, R176). -/
theorem step_repeatedData {a : Address} {p : List Byte} (hfits : p.length ≤ Config.maxPayload) {s : State}
    (h : RepeatedData a p s) : ∃ t, step s = .next t ∧ RepeatedData a p t := by
  obtain ⟨b, suf, hframe, honward⟩ := h.cycle
  have hdue : dueEvent s = some (.rxByte b) := by simp [dueEvent, h.unlisted, honward, Onward.due]
  have hadvance : advance s = { s with onward := .again ((suf ++ (s.rxWin ++ [b])).map Event.rxByte) } := by
    simp [advance_eq, h.unlisted, honward, Onward.next]
  have hverdict := decodeFrame_delivered hfits hframe
  rw [step_due_rxByte hdue (isAwaiting_iff.mpr (.inr h.more)), hadvance]
  cases suf with
  | nil =>
    obtain ⟨c, rest, hcons⟩ := exists_rawFrame_cons a 0x02 p
    refine ⟨_, (judgeWindow_packet hverdict rfl _).trans (exec_data_more_fits a h.more h.fits),
      h.more, h.unlisted, ⟨c, rest, hcons.symm, ?_⟩, ?_⟩
    · simp only [List.nil_append, List.append_nil, hframe, hcons]
    · refine h.room.imp_right fun ⟨hempty, hroom⟩ => ⟨hempty, ?_⟩
      simpa [hempty] using hroom
  | cons c suf =>
    refine ⟨_, judgeWindow_incomplete hverdict _, h.more, h.unlisted, ⟨c, suf, ?_, rfl⟩, h.room⟩
    exact (List.append_cons _ _ _).symm.trans hframe

/-- Settles O37: with nothing to come a step changes nothing, and each byte of the repeated packet keeps
`RepeatedData`. -/
theorem executionsThatNeverEndAreKept : Obligations.ExecutionsThatNeverEndAreKept := by
  constructor
  · intro s n hevents hquiet
    have hstep : step s = .next s := step_idle (by simp only [dueEvent, hevents, hquiet, Onward.due])
    obtain ⟨t, hrun, rfl⟩ := run_keeps (P := (· = s)) (fun u hu => ⟨s, hu ▸ hstep, rfl⟩) n rfl
    exact hrun
  · intro s address payload n hmore hwin hevents hfits honward hroom
    obtain ⟨b, suf, hframe⟩ := exists_rawFrame_cons address 0x02 payload
    have hstart : RepeatedData address payload s :=
      ⟨hmore, hevents, ⟨b, suf, by rw [hwin, hframe]; rfl, by rw [honward, hwin, hframe, List.append_nil]⟩, hroom⟩
    obtain ⟨t, hrun, ht⟩ := run_keeps (fun u => step_repeatedData hfits) n hstart
    exact ⟨t, hrun, ht.more⟩

end Sys2Proof
end
